-- ==== Sys2Proof/Word.lean ====
section
/-! DEFINITION. The word types of the block: 00_scope.md R11, R12, R16. -/

namespace Sys2Proof

/-- One bit of a sequence, 0 as `false` and 1 as `true` (00_scope.md R12). -/
abbrev Bit := Bool

/-- One byte of a request, a response, a record image or a Message. -/
abbrev Byte := BitVec 8

/-- A 16-bit value: a length, an index, a count, a codeword word W (00_scope.md R16). -/
abbrev Word16 := BitVec 16

/-- The 11-bit data value D of a codeword (00_scope.md R16). -/
abbrev Data := BitVec 11

end Sys2Proof
end

