-- ==== Sys2Proof/Config.lean ====
section
/-! DEFINITION. The fixed constants of 00_scope.md R7 and R9 and the open parameters of R8 and R10. -/

namespace Sys2Proof

/-- K_DATA, the data bits of a codeword (00_scope.md R7). -/
def Config.dataBits : Nat := 11

/-- N_CW, the bits of a codeword (00_scope.md R7). -/
def Config.codewordBits : Nat := 16

/-- REC_BITS, the bits of a record's canonical layout (00_scope.md R7). -/
def Config.recordBits : Nat := 488

/-- The bytes of a record image, REC_BITS / 8 (00_scope.md R7, 42_record.md R180). -/
def Config.recordBytes : Nat := 61

/-- MSG_BLOCKS, the codewords of a Message (00_scope.md R7, 43_framer.md R210). -/
def Config.messageBlocks : Nat := 45

/-- PAD_BITS, the zero bits appended to a serialized record (00_scope.md R7, 43_framer.md R212). -/
def Config.padBits : Nat := 7

/-- MSG_BYTES, the bytes of a packed Message (00_scope.md R7, 43_framer.md R211). -/
def Config.messageBytes : Nat := 90

/-- STATUS_OK, the record status code of Ok (00_scope.md R9; log 12). -/
def Config.statusOk : Byte := 0x00#8

/-- STATUS_EMERGENCY, the record status code of Emergency (00_scope.md R9; log 12). -/
def Config.statusEmergency : Byte := 0x01#8

/-- BB_N, the capacity of this instance in bits: an open parameter of the spec, 0 to 65535 (00_scope.md R8,
10_state.md R23). DESIGN CHOICE, safe: opaque, so that nothing proved rests on a number (log 1). -/
opaque Config.bbN : Word16

/-- LATENCY(op), the time from a request with this opcode byte to its response: an open parameter, finite, that no rule
depends on (00_scope.md R10, 70_reset_and_hazards.md R283). Nothing in the model reads it: there is no clock (log 10). -/
opaque Config.latency : Byte → Nat

end Sys2Proof
end

