-- ==== Sys2Proof/Machine/Operands.lean ====
section
/-! DEFINITION. Bit and byte order, and every operand field of a request: 20_memory.md R42 to R45, 30_encoding.md R61
and R64. -/

namespace Sys2Proof.Machine

/-! ## Bit sequences: most significant bit first -/

/-- A value as a bit sequence, most significant bit first (20_memory.md R42, R45). -/
def fieldBits {w : Nat} (v : BitVec w) : List Bit :=
  (List.range w).map v.getMsbD

/-- The number a bit sequence spells, its first bit the most significant. -/
def bitsNat (bs : List Bit) : Nat :=
  bs.foldl (fun acc b => 2 * acc + b.toNat) 0

/-- A bit sequence as a value of width `w`, its first bit the most significant (20_memory.md R42, R45). -/
def bitsField (w : Nat) (bs : List Bit) : BitVec w :=
  BitVec.ofNat w (bitsNat bs)

/-- Bytes as a bit sequence: each byte's bit 7 first, the bytes in order (20_memory.md R42). -/
def bytesBits (xs : List Byte) : List Bit :=
  xs.flatMap fieldBits

/-- The `w` bits of a sequence that begin at index `off`. -/
def sliceBits (off w : Nat) (bs : List Bit) : List Bit :=
  (bs.drop off).take w

/-- The first `n` bytes of a bit sequence, 8 bits a byte, the first bit of each as its bit 7 (20_memory.md R42). -/
def bitsBytes (n : Nat) (bs : List Bit) : List Byte :=
  (List.range n).map fun j => bitsField 8 (sliceBits (8 * j) 8 bs)

/-! ## Multi-byte fields: big-endian -/

/-- A 16-bit value as its two bytes, most significant first (20_memory.md R43, R45). -/
def bytes16 (v : Word16) : List Byte :=
  [v.extractLsb' 8 8, v.extractLsb' 0 8]

/-- A 32-bit value as its four bytes, most significant first (20_memory.md R43). -/
def bytes32 (v : BitVec 32) : List Byte :=
  [v.extractLsb' 24 8, v.extractLsb' 16 8, v.extractLsb' 8 8, v.extractLsb' 0 8]

/-- Byte `i` of a byte string; a string of the length its format fixes has it. -/
def byteAt (xs : List Byte) (i : Nat) : Byte :=
  xs.getD i 0#8

/-- The 16-bit big-endian field at byte `i`: `req16(i)` of 00_scope.md R15. -/
def word16At (xs : List Byte) (i : Nat) : Word16 :=
  byteAt xs i ++ byteAt xs (i + 1)

/-- The 32-bit big-endian field at byte `i` (20_memory.md R43). -/
def word32At (xs : List Byte) (i : Nat) : BitVec 32 :=
  byteAt xs i ++ byteAt xs (i + 1) ++ byteAt xs (i + 2) ++ byteAt xs (i + 3)

/-! ## Operand fields of a request (30_encoding.md R64) -/

/-- The bit b of BB.PUSH, `req[1][0]`; none when the reserved bits `req[1][7:1]` are not 0 (R64, R68). -/
def operandBit (req : List Byte) : Option Bit :=
  if (byteAt req 1).extractLsb' 1 7 = 0#7 then some ((byteAt req 1).getLsbD 0) else none

/-- The index i of BB.GET, the count k of BB.LOADB and the word W of DECODE: `req16(1)` (R64). -/
def operandWord16 (req : List Byte) : Word16 :=
  word16At req 1

/-- The data D of ENCODE, `req16(1)[10:0]`; none when the reserved bits `req16(1)[15:11]` are not 0 (R64, R68). -/
def operandData (req : List Byte) : Option Data :=
  if (word16At req 1).extractLsb' 11 5 = 0#5 then some ((word16At req 1).extractLsb' 0 11) else none

/-- The data bytes of BB.LOADB, `req[3..3+k]` (R63). -/
def operandBytes (req : List Byte) : List Byte :=
  req.drop 3

/-- The record image, bit image or Message, all bytes after the opcode (R64). -/
def operandImage (req : List Byte) : List Byte :=
  req.drop 1

end Sys2Proof.Machine
end

