-- ==== Sys2Proof/Syntax.lean ====
section
/-! DEFINITION. The commands of the block: the opcode names, the request formats and the one type of instructions
(30_encoding.md R63 to R65). -/

namespace Sys2Proof

/-- The request formats (30_encoding.md R63). -/
inductive Format where
  /-- F-NONE: the opcode byte alone. -/
  | fNone
  /-- F-BIT: the opcode byte and a byte whose bit 0 is the operand. -/
  | fBit
  /-- F-U16: the opcode byte and one 16-bit operand. -/
  | fU16
  /-- F-BYTES: the opcode byte, a 16-bit count k and k data bytes. -/
  | fBytes
  /-- F-REC: the opcode byte and a 61-byte image. -/
  | fRec
  /-- F-MSG: the opcode byte and a 90-byte packed Message. -/
  | fMsg
  deriving DecidableEq, Repr

/-- The thirteen listed opcodes (30_encoding.md R65). -/
inductive Opcode where
  | bbClear
  | bbPush
  | bbPop
  | bbLen
  | bbCap
  | bbGet
  | bbLoadb
  | encode
  | decode
  | serialize
  | deserialize
  | frame
  | unframe
  deriving DecidableEq, Repr

/-- One command with its operands, one constructor per row of the opcode table (30_encoding.md R65); the operands are
those of R64. Images and Messages are byte lists whose lengths `Instr.wellFormed` checks. -/
inductive Instr where
  /-- BB.CLEAR: empty the buffer (40_bitbuffer.md R100). -/
  | bbClear
  /-- BB.PUSH b: append one bit (40_bitbuffer.md R101). -/
  | bbPush (b : Bit)
  /-- BB.POP: remove and return the last bit (40_bitbuffer.md R102). -/
  | bbPop
  /-- BB.LEN: return the length (40_bitbuffer.md R103). -/
  | bbLen
  /-- BB.CAP: return the capacity (40_bitbuffer.md R104). -/
  | bbCap
  /-- BB.GET i: return the bit at index i (40_bitbuffer.md R105). -/
  | bbGet (i : Word16)
  /-- BB.LOADB x0, x1, ...: load the buffer from bytes; the count k is the number of bytes (40_bitbuffer.md R106). -/
  | bbLoadb (xs : List Byte)
  /-- ENCODE D: encode 11 data bits (41_codec.md R152). -/
  | encode (d : Data)
  /-- DECODE W: decode a codeword word (41_codec.md R153). -/
  | decode (w : Word16)
  /-- SERIALIZE: the canonical layout of the record of an image (42_record.md R190). -/
  | serialize (img : List Byte)
  /-- DESERIALIZE: the record of a 488-bit layout (42_record.md R191). -/
  | deserialize (img : List Byte)
  /-- FRAME: the Message of a record image (43_framer.md R221). -/
  | frame (img : List Byte)
  /-- UNFRAME: the record of a Message (43_framer.md R222). -/
  | unframe (msg : List Byte)
  deriving DecidableEq, Repr

end Sys2Proof
end

