-- ==== Sys2Proof/WellFormed.lean ====
section
/-! DEFINITION. Which instructions a request can carry: the operand lengths of 30_encoding.md R63. -/

namespace Sys2Proof

/-- The operands have the lengths their format fixes: a count of at most 65535 bytes for BB.LOADB, 61 bytes for an image,
90 bytes for a Message (30_encoding.md R63). The widths of every other operand are in its type. -/
def Instr.wellFormed : Instr → Bool
  | .bbClear => true
  | .bbPush _ => true
  | .bbPop => true
  | .bbLen => true
  | .bbCap => true
  | .bbGet _ => true
  | .bbLoadb xs => decide (xs.length ≤ 65535)
  | .encode _ => true
  | .decode _ => true
  | .serialize img => decide (img.length = Config.recordBytes)
  | .deserialize img => decide (img.length = Config.recordBytes)
  | .frame img => decide (img.length = Config.recordBytes)
  | .unframe msg => decide (msg.length = Config.messageBytes)

end Sys2Proof
end

