-- ==== Sys2Proof/Decode.lean ====
section
/-! DEFINITION. Decoding a request and encoding an instruction: 30_encoding.md R61 to R72, 60_exceptions.md R250 steps
1 to 3. Decoding is total on byte strings; what it rejects it rejects by name. -/

namespace Sys2Proof

open Sys2Proof.Machine

/-- Why a request is no command: the two answers of 30_encoding.md R72. -/
inductive IllegalRequest where
  /-- An empty request or a reserved opcode (30_encoding.md R66, R67). -/
  | illegalOpcode
  /-- A wrong length or a reserved operand bit set (30_encoding.md R68). -/
  | illegalOperand
  deriving DecidableEq, Repr

/-- The thirteen listed opcodes in the order of the opcode map (30_encoding.md R65). -/
def Opcode.all : List Opcode :=
  [.bbClear, .bbPush, .bbPop, .bbLen, .bbCap, .bbGet, .bbLoadb, .encode, .decode, .serialize, .deserialize, .frame, .unframe]

/-- The opcode byte of a command (30_encoding.md R65). -/
def Opcode.byte : Opcode → Byte
  | .bbClear => 0x01#8
  | .bbPush => 0x02#8
  | .bbPop => 0x03#8
  | .bbLen => 0x04#8
  | .bbCap => 0x05#8
  | .bbGet => 0x06#8
  | .bbLoadb => 0x07#8
  | .encode => 0x10#8
  | .decode => 0x11#8
  | .serialize => 0x20#8
  | .deserialize => 0x21#8
  | .frame => 0x30#8
  | .unframe => 0x31#8

/-- The request format of a command (30_encoding.md R65). -/
def Opcode.format : Opcode → Format
  | .bbClear => .fNone
  | .bbPush => .fBit
  | .bbPop => .fNone
  | .bbLen => .fNone
  | .bbCap => .fNone
  | .bbGet => .fU16
  | .bbLoadb => .fBytes
  | .encode => .fU16
  | .decode => .fU16
  | .serialize => .fRec
  | .deserialize => .fRec
  | .frame => .fRec
  | .unframe => .fMsg

/-- The command an opcode byte selects; none for a reserved byte (30_encoding.md R65, R66). -/
def Opcode.ofByte (b : Byte) : Option Opcode :=
  Opcode.all.find? fun o => o.byte == b

/-- The length the format fixes for a request; none when an F-BYTES request is too short for its count to be read
(30_encoding.md R63, R68, R71). -/
def Format.requestLength (f : Format) (req : List Byte) : Option Nat :=
  match f with
  | .fNone => some 1
  | .fBit => some 2
  | .fU16 => some 3
  | .fBytes => if req.length < 3 then none else some (3 + (operandWord16 req).toNat)
  | .fRec => some (1 + Config.recordBytes)
  | .fMsg => some (1 + Config.messageBytes)

/-- The instruction an opcode and the operand bytes of its request make; none when a reserved operand bit is set
(30_encoding.md R64, R68). -/
def Opcode.instr (o : Opcode) (req : List Byte) : Option Instr :=
  match o with
  | .bbClear => some .bbClear
  | .bbPush => (operandBit req).map .bbPush
  | .bbPop => some .bbPop
  | .bbLen => some .bbLen
  | .bbCap => some .bbCap
  | .bbGet => some (.bbGet (operandWord16 req))
  | .bbLoadb => some (.bbLoadb (operandBytes req))
  | .encode => (operandData req).map .encode
  | .decode => some (.decode (operandWord16 req))
  | .serialize => some (.serialize (operandImage req))
  | .deserialize => some (.deserialize (operandImage req))
  | .frame => some (.frame (operandImage req))
  | .unframe => some (.unframe (operandImage req))

/-- Reads a request: the opcode first, then the length, then the reserved bits (60_exceptions.md R250 steps 1 to 3). The
status byte of a record image (step 4) is checked by the meanings of SERIALIZE and FRAME, as 42_record.md R190 and
43_framer.md R221 write it. -/
def decode (req : List Byte) : Except IllegalRequest Instr :=
  match req with
  | [] => .error .illegalOpcode
  | op :: _ =>
    match Opcode.ofByte op with
    | none => .error .illegalOpcode
    | some o =>
      if o.format.requestLength req = some req.length then
        match o.instr req with
        | some i => .ok i
        | none => .error .illegalOperand
      else .error .illegalOperand

/-- The opcode of an instruction (30_encoding.md R65). -/
def Instr.opcode : Instr → Opcode
  | .bbClear => .bbClear
  | .bbPush _ => .bbPush
  | .bbPop => .bbPop
  | .bbLen => .bbLen
  | .bbCap => .bbCap
  | .bbGet _ => .bbGet
  | .bbLoadb _ => .bbLoadb
  | .encode _ => .encode
  | .decode _ => .decode
  | .serialize _ => .serialize
  | .deserialize _ => .deserialize
  | .frame _ => .frame
  | .unframe _ => .unframe

/-- The operand bytes of an instruction (30_encoding.md R63, R64). -/
def Instr.operandBytes : Instr → List Byte
  | .bbClear => []
  | .bbPush b => [0#7 ++ BitVec.ofBool b]
  | .bbPop => []
  | .bbLen => []
  | .bbCap => []
  | .bbGet i => bytes16 i
  | .bbLoadb xs => bytes16 (BitVec.ofNat 16 xs.length) ++ xs
  | .encode d => bytes16 (0#5 ++ d)
  | .decode w => bytes16 w
  | .serialize img => img
  | .deserialize img => img
  | .frame img => img
  | .unframe msg => msg

/-- The request of an instruction: its opcode byte and its operand bytes (30_encoding.md R61, R63 to R65). -/
def encode (i : Instr) : List Byte :=
  i.opcode.byte :: i.operandBytes

/-! ## Words of the opcode table -/

/-- The first `n` bytes of an instruction word numbered as the opcode table numbers it: byte j is bits 8j+7 to 8j, so
that byte 0 is the opcode byte. -/
def tableBytes (n w : Nat) : List Byte :=
  (List.range n).map fun j => BitVec.ofNat 8 (w / 2 ^ (8 * j))

/-- How many bytes the instruction whose bits are `w` has: what its opcode and, for BB.LOADB, its count fix
(30_encoding.md R71), and never fewer than the table gives. -/
def tableLength (nbits w : Nat) : Nat :=
  match Opcode.ofByte (BitVec.ofNat 8 w) with
  | none => nbits / 8
  | some o => max (nbits / 8) ((o.format.requestLength (tableBytes 3 w)).getD 0)

/-- The request an opcode-table word stands for: its bits above `nbits` are 0. -/
def tableRequest (nbits w : Nat) : List Byte :=
  tableBytes (tableLength nbits (w % 2 ^ nbits)) (w % 2 ^ nbits)

/-- The instruction the decoder reads from an opcode-table word; none where it refuses. -/
def decodeTableWord (nbits w : Nat) : Option Instr :=
  (decode (tableRequest nbits w)).toOption

end Sys2Proof
end

