-- ==== Sys2Proof/Machine/Flags.lean ====
section
/-! DEFINITION. The status codes and result flags of responses. The block has no flag register (10_state.md R25): each of
these describes one command. -/

namespace Sys2Proof.Machine

/-- The response statuses (30_encoding.md R69). -/
inductive RspStatus where
  | ok
  | capacityExceeded
  | empty
  | indexOutOfRange
  | malformedRecord
  | unrecoverableChannel
  | invalidRecord
  | illegalOperand
  | illegalOpcode
  deriving DecidableEq, Repr

/-- The response status byte (30_encoding.md R69, 60_exceptions.md R240). -/
def RspStatus.code : RspStatus → Byte
  | .ok => 0x00#8
  | .capacityExceeded => 0x01#8
  | .empty => 0x02#8
  | .indexOutOfRange => 0x03#8
  | .malformedRecord => 0x04#8
  | .unrecoverableChannel => 0x05#8
  | .invalidRecord => 0x06#8
  | .illegalOperand => 0x07#8
  | .illegalOpcode => 0x08#8

/-- The closed set of decode outcomes (10_state.md R27, 41_codec.md R149). -/
inductive DecodeStatus where
  | clean
  | correctedSingleBit (position : BitVec 4)
  | uncorrectableMultiBit
  deriving DecidableEq, Repr

/-- The DecodeStatus code of a DECODE response (30_encoding.md R70, 41_codec.md R153). -/
def DecodeStatus.code : DecodeStatus → Byte
  | .clean => 0#8
  | .correctedSingleBit _ => 1#8
  | .uncorrectableMultiBit => 2#8

/-- The position byte of a DECODE response, 0 unless a bit was corrected (30_encoding.md R70, 41_codec.md R151). -/
def DecodeStatus.position : DecodeStatus → Byte
  | .clean => 0#8
  | .correctedSingleBit p => p.setWidth 8
  | .uncorrectableMultiBit => 0#8

/-- Whether a block was corrected, the one thing any_corrected asks of it (43_framer.md R220). -/
def DecodeStatus.isCorrected : DecodeStatus → Bool
  | .clean => false
  | .correctedSingleBit _ => true
  | .uncorrectableMultiBit => false

/-- Whether a block ends unframing (43_framer.md R217). -/
def DecodeStatus.isUncorrectable : DecodeStatus → Bool
  | .clean => false
  | .correctedSingleBit _ => false
  | .uncorrectableMultiBit => true

/-- A flag or a bit as a result byte, 0x00 or 0x01 (30_encoding.md R70). -/
def flagByte (b : Bool) : Byte :=
  0#7 ++ BitVec.ofBool b

/-- any_corrected: whether at least one block was corrected, at whatever position (43_framer.md R220). -/
def anyCorrected (sts : List DecodeStatus) : Bool :=
  sts.any DecodeStatus.isCorrected

end Sys2Proof.Machine
end

