-- ==== Sys2Proof/Machine/State.lean ====
section
/-! DEFINITION. The state of the block (10_state.md R20 to R23), the two ends of its command port (30_encoding.md R60 to
R62, R75), the reasons a step can stop, and reset (70_reset_and_hazards.md R270). -/

namespace Sys2Proof.Machine

/-- What the host can do next at the command port (30_encoding.md R75; log 2). -/
inductive HostEvent where
  /-- The host sends a request, having received every earlier response (30_encoding.md R60, R61). -/
  | request (req : List Byte)
  /-- The host sends a request before it has received the response to its previous one
  (70_reset_and_hazards.md R276; log 6). -/
  | earlyRequest (req : List Byte)
  /-- The host resets the block between two transactions (70_reset_and_hazards.md R270). -/
  | reset
  /-- The host resets the block while this request is in progress: performed or not, it gets no response
  (70_reset_and_hazards.md R272; log 5). -/
  | resetDuring (req : List Byte)
  deriving DecidableEq, Repr

/-- The BitBuffer cells that are not UNSET, as (index, bit) pairs: an index that is not listed is UNSET
(10_state.md R20, R22). `Cells.wf` is the one canonical form, indices strictly rising (log 8). -/
abbrev Cells := List (Nat × Bit)

/-- The state of the block and of its command port. `bbN`, `len` and `cells` are the whole architectural state
(10_state.md R20); `inputs` and `responses` are the model's own (log 2). -/
structure State where
  /-- BB_N, the capacity of this instance in bits; no command and no reset changes it (10_state.md R23). -/
  bbN : Word16
  /-- BB.len, the number of bits the buffer holds (10_state.md R21). -/
  len : Word16
  /-- BB.cell, the bit cells (10_state.md R22). -/
  cells : Cells
  /-- What the host does next, the next event first: the program of 70_reset_and_hazards.md R282. -/
  inputs : List HostEvent
  /-- The responses returned so far, the oldest first: the observation of 70_reset_and_hazards.md R282. -/
  responses : List (List Byte)
  deriving DecidableEq, Repr

/-- Why a step can stop with a fault. -/
inductive Fault where
  /-- BB.GET or BB.POP meets a cell below the length that is UNSET. The invariant of 10_state.md R22 rules it out, so no
  run from reset raises it. Safe: the spec gives no command the value of an UNSET cell (log 7). -/
  | unsetCell (i : Nat)
  deriving DecidableEq, Repr

/-- Why a step can be refused. -/
inductive Refusal where
  /-- An instruction without a meaning; no arm of `exec` raises it any more. Safe. -/
  | notModelled (mnemonic : String)
  /-- The host sent a request before the response to its previous one: "a model has no step for it"
  (70_reset_and_hazards.md R276, 93_implementation_defined.md row 17; log 6). Raised by `step`, by no instruction.
  Unsafe only for a claim about a host that breaks this duty. -/
  | requestBeforeResponse
  deriving DecidableEq, Repr

/-- The state right after reset (70_reset_and_hazards.md R270): length 0, every cell UNSET, the capacity this instance's.
The port is quiet: the host has sent nothing and holds no response (log 2). -/
def State.reset : State where
  bbN := Config.bbN
  len := 0#16
  cells := []
  inputs := []
  responses := []

end Sys2Proof.Machine
end

