-- ==== Sys2Proof/Machine/Ops.lean ====
section
/-! DEFINITION. The named operations: reading and writing BitBuffer cells, updating the state, responding and raising an
error. -/

namespace Sys2Proof.Machine

/-! ## The BitBuffer cells -/

/-- `BB.cell[i]`: 0, 1, or UNSET as none (10_state.md R22). -/
def Cells.read : Cells → Nat → Option Bit
  | [], _ => none
  | (j, b) :: t, i => if i = j then some b else Cells.read t i

/-- `BB.cell[i] <- b`, at its place in index order. -/
def Cells.write : Cells → Nat → Bit → Cells
  | [], i, b => [(i, b)]
  | (j, c) :: t, i, b =>
    if i < j then (i, b) :: (j, c) :: t
    else if i = j then (i, b) :: t
    else (j, c) :: Cells.write t i b

/-- `BB.cell[i] <- UNSET`: the cell is no longer listed. -/
def Cells.unset (m : Cells) (i : Nat) : Cells :=
  m.filter fun c => c.1 != i

/-- Every cell UNSET: `for i in 0..BB_N: BB.cell[i] <- UNSET` (40_bitbuffer.md R100). -/
def Cells.allUnset : Cells :=
  []

/-- Cell i holds bit i of a sequence, and every cell after its end is UNSET: what the loops of BB.LOADB leave
(40_bitbuffer.md R106). -/
def Cells.ofBits (bs : List Bit) : Cells :=
  bs.zipIdx.map fun c => (c.2, c.1)

/-- The canonical form of the cell store: indices strictly rising, so that equal contents are equal lists (log 8). -/
abbrev Cells.wf (m : Cells) : Prop :=
  (m.map Prod.fst).Pairwise (· < ·)

/-! ## State updates -/

/-- `BB.len <- v` (00_scope.md R15). -/
def State.withLen (s : State) (v : Word16) : State :=
  { s with len := v }

/-- The state with these cells. -/
def State.withCells (s : State) (m : Cells) : State :=
  { s with cells := m }

/-- The state with these host events to come. -/
def State.withInputs (s : State) (evs : List HostEvent) : State :=
  { s with inputs := evs }

/-- `respond S(bytes)`: one response, its status byte first; state writes made before it stand
(00_scope.md R15, 30_encoding.md R62). -/
def State.respond (s : State) (st : RspStatus) (bytes : List Byte) : State :=
  { s with responses := s.responses ++ [st.code :: bytes] }

/-- `raise S`, the block's whole error entry: an error status, no result bytes, no state write
(00_scope.md R15, 60_exceptions.md R241, R254). There is no return from it: the block then waits for the next request. -/
def State.raise (s : State) (st : RspStatus) : State :=
  s.respond st []

/-- Reset: length 0, every cell UNSET, the capacity unchanged, no response (70_reset_and_hazards.md R270 to R272). What
the host has yet to do and the responses it already holds are the host's, and stay (log 4). -/
def State.resetBlock (s : State) : State :=
  (s.withCells Cells.allUnset).withLen 0#16

end Sys2Proof.Machine
end

