-- ==== Sys2Proof/Machine/BitBuffer.lean ====
section
/-! DEFINITION. The BitBuffer commands: 40_bitbuffer.md R100 to R106. -/

namespace Sys2Proof.Machine

open Host

/-- BB.CLEAR: every cell UNSET, length 0 (40_bitbuffer.md R100). -/
def execBbClear (s : State) : Outcome State Fault Refusal :=
  .next (((s.withCells Cells.allUnset).withLen 0#16).respond .ok [])

/-- BB.PUSH: "appends one bit if `length < N`; otherwise fails with `CapacityExceeded` and buffer is unchanged"
(40_bitbuffer.md R101; log 9). -/
def execBbPush (b : Bit) (s : State) : Outcome State Fault Refusal :=
  .next (if s.len.toNat < s.bbN.toNat then
      ((s.withCells (s.cells.write s.len.toNat b)).withLen (s.len + 1#16)).respond .ok []
    else s.raise .capacityExceeded)

/-- BB.POP: remove the last bit and return it; the cell becomes UNSET (40_bitbuffer.md R102). -/
def execBbPop (s : State) : Outcome State Fault Refusal :=
  if s.len = 0#16 then .next (s.raise .empty)
  else
    match s.cells.read (s.len.toNat - 1) with
    | some b =>
      .next (((s.withCells (s.cells.unset (s.len.toNat - 1))).withLen (s.len - 1#16)).respond .ok [flagByte b])
    | none => .fault (.unsetCell (s.len.toNat - 1))

/-- BB.LEN: the length, 16 bits (40_bitbuffer.md R103). -/
def execBbLen (s : State) : Outcome State Fault Refusal :=
  .next (s.respond .ok (bytes16 s.len))

/-- BB.CAP: the capacity, 16 bits (40_bitbuffer.md R104). -/
def execBbCap (s : State) : Outcome State Fault Refusal :=
  .next (s.respond .ok (bytes16 s.bbN))

/-- BB.GET: the bit at an index below the length (40_bitbuffer.md R105). -/
def execBbGet (i : Word16) (s : State) : Outcome State Fault Refusal :=
  if s.len.toNat ≤ i.toNat then .next (s.raise .indexOutOfRange)
  else
    match s.cells.read i.toNat with
    | some b => .next (s.respond .ok [flagByte b])
    | none => .fault (.unsetCell i.toNat)

/-- BB.LOADB: the bits of the bytes replace the whole contents; the capacity is checked first, without overflow
(40_bitbuffer.md R106). -/
def execBbLoadb (xs : List Byte) (s : State) : Outcome State Fault Refusal :=
  .next (if s.bbN.toNat < 8 * xs.length then s.raise .capacityExceeded
    else ((s.withCells (Cells.ofBits (bytesBits xs))).withLen (BitVec.ofNat 16 (8 * xs.length))).respond .ok [])

end Sys2Proof.Machine
end

