-- ==== Sys2Proof/Machine/Codec.lean ====
section
/-! DEFINITION. The codeword codec: 41_codec.md R140 to R153. A codeword is worked on as its sixteen positions in order,
`c[0]` to `c[15]`, which read most significant bit first are the word W (R140). -/

namespace Sys2Proof.Machine

open Host

/-- DATAPOS and POS: the eleven data positions; data bit k goes to the k-th of them (41_codec.md R141). -/
def dataPositions : List Nat :=
  [3, 5, 6, 7, 9, 10, 11, 12, 13, 14, 15]

/-- The Hamming check positions (41_codec.md R142). -/
def checkPositions : List Nat :=
  [1, 2, 4, 8]

/-- The positions of a codeword, 0 to 15 (41_codec.md R140). -/
def positions : List Nat :=
  List.range 16

/-- The positions 1 to 15, which the syndrome and the parity bit look at (41_codec.md R144, R147). -/
def lowPositions : List Nat :=
  List.range' 1 15

/-- The bit `c[p]` of a codeword's positions (00_scope.md R13). -/
def posBit (c : List Bit) (p : Nat) : Bit :=
  c.getD p false

/-- `xor_{i in ps} c[i]`, the empty fold 0 (00_scope.md R15). -/
def xorOver (c : List Bit) (ps : List Nat) : Bit :=
  ps.foldl (fun acc i => acc ^^ posBit c i) false

/-- The positions whose index has the bit of weight `p` set, out of `ps` (41_codec.md R142). -/
def coveredBy (p : Nat) (ps : List Nat) : List Nat :=
  ps.filter fun i => i &&& p != 0

/-- The data bits in the data positions, every other position 0 (41_codec.md R141, R145). -/
def placeData (d : Data) : List Bit :=
  (dataPositions.zip (fieldBits d)).foldl (fun c pb => c.set pb.1 pb.2) (List.replicate 16 false)

/-- Each check position set to the parity of the data positions it covers (41_codec.md R143). -/
def setChecks (c : List Bit) : List Bit :=
  checkPositions.foldl (fun c p => c.set p (xorOver c (coveredBy p dataPositions))) c

/-- Position 0 set to the parity of the fifteen others (41_codec.md R144). -/
def setParity (c : List Bit) : List Bit :=
  c.set 0 (xorOver c lowPositions)

/-- `Encode(D)` (41_codec.md R145). -/
def encodeData (d : Data) : Word16 :=
  bitsField 16 (setParity (setChecks (placeData d)))

/-- The syndrome s: the XOR of the indices of the set bits among positions 1 to 15 (41_codec.md R147). -/
def syndrome (c : List Bit) : BitVec 4 :=
  lowPositions.foldl (fun acc i => if posBit c i then acc ^^^ BitVec.ofNat 4 i else acc) 0#4

/-- The overall-parity check q, 0 when consistent (41_codec.md R148). -/
def overallParity (c : List Bit) : Bit :=
  xorOver c positions

/-- The DecodeStatus of a syndrome and an overall parity (41_codec.md R149). -/
def classify (s : BitVec 4) (q : Bit) : DecodeStatus :=
  if s = 0#4 ∧ q = false then .clean
  else if q = true then .correctedSingleBit s
  else .uncorrectableMultiBit

/-- The correction of a DecodeStatus: the flip of the position it names, if it names one (41_codec.md R149). -/
def correct (st : DecodeStatus) (c : List Bit) : List Bit :=
  match st with
  | .clean => c
  | .correctedSingleBit p => c.set p.toNat (!posBit c p.toNat)
  | .uncorrectableMultiBit => c

/-- The data bits at the data positions (41_codec.md R150). -/
def extractData (c : List Bit) : Data :=
  bitsField 11 (dataPositions.map (posBit c))

/-- `Decode(W)`: the data after the correction and the DecodeStatus (41_codec.md R151). An uncorrectable word's data are
the data bits as received (R150; log 11). -/
def decodeWord (w : Word16) : Data × DecodeStatus :=
  let c := fieldBits w
  let st := classify (syndrome c) (overallParity c)
  (extractData (correct st c), st)

/-- ENCODE: the codeword word of 11 data bits (41_codec.md R152). -/
def execEncode (d : Data) (s : State) : Outcome State Fault Refusal :=
  .next (s.respond .ok (bytes16 (encodeData d)))

/-- DECODE: the data, the DecodeStatus code and the position, with status OK whatever the DecodeStatus
(41_codec.md R153, 60_exceptions.md R252). -/
def execDecode (w : Word16) (s : State) : Outcome State Fault Refusal :=
  .next (s.respond .ok
    (bytes16 ((decodeWord w).1.setWidth 16) ++ [(decodeWord w).2.code, (decodeWord w).2.position]))

end Sys2Proof.Machine
end

