-- ==== Sys2Proof/Machine/Record.lean ====
section
/-! DEFINITION. The telemetry record, its canonical layout, SERIALIZE and DESERIALIZE: 42_record.md R180 to R191. -/

namespace Sys2Proof.Machine

open Host

/-- The closed status enumeration (42_record.md R185). -/
inductive RecordStatus where
  | ok
  | emergency
  deriving DecidableEq, Repr

/-- A geodetic position: two float patterns, carried unread, and an altitude (42_record.md R182, R188; log 15). -/
structure Position where
  lat : BitVec 32
  lon : BitVec 32
  alt : Word16
  deriving DecidableEq, Repr

/-- The three velocity patterns in record order (42_record.md R183, R188). -/
structure Velocity where
  v0 : BitVec 32
  v1 : BitVec 32
  v2 : BitVec 32
  deriving DecidableEq, Repr

/-- The timestamp, no field range-checked (42_record.md R184). -/
structure Timestamp where
  year : Word16
  month : Byte
  day : Byte
  ms : BitVec 32
  deriving DecidableEq, Repr

/-- The typed telemetry record (42_record.md R180 to R185). -/
structure TelemetryRecord where
  /-- The 20 serial bytes, none checked, byte 0 the first character (R181). -/
  serial : Vector Byte 20
  /-- The control-station position (R182). -/
  cs : Position
  /-- The aircraft position (R182). -/
  ac : Position
  vel : Velocity
  ts : Timestamp
  status : RecordStatus
  deriving DecidableEq, Repr

/-- The status byte of a record (42_record.md R185, 00_scope.md R9). -/
def RecordStatus.code : RecordStatus → Byte
  | .ok => Config.statusOk
  | .emergency => Config.statusEmergency

/-- The status a byte stands for; none when it is not valid (42_record.md R185). -/
def RecordStatus.ofByte (b : Byte) : Option RecordStatus :=
  if b = Config.statusOk then some .ok
  else if b = Config.statusEmergency then some .emergency
  else none

/-- The 80 bits of a position: latitude, longitude, altitude (42_record.md R180). -/
def Position.bits (p : Position) : List Bit :=
  fieldBits p.lat ++ fieldBits p.lon ++ fieldBits p.alt

/-- The 96 bits of a velocity (42_record.md R180). -/
def Velocity.bits (v : Velocity) : List Bit :=
  fieldBits v.v0 ++ fieldBits v.v1 ++ fieldBits v.v2

/-- The 64 bits of a timestamp (42_record.md R180). -/
def Timestamp.bits (t : Timestamp) : List Bit :=
  fieldBits t.year ++ fieldBits t.month ++ fieldBits t.day ++ fieldBits t.ms

/-- `Serialize(record)`: the 488 bits of the canonical layout (42_record.md R180, R186). -/
def serializeRecord (r : TelemetryRecord) : List Bit :=
  bytesBits r.serial.toList ++ r.cs.bits ++ r.ac.bits ++ r.vel.bits ++ r.ts.bits ++ fieldBits r.status.code

/-- The record image of a record: the 61 bytes of its layout (42_record.md R180, R186). -/
def recordImage (r : TelemetryRecord) : List Byte :=
  bitsBytes Config.recordBytes (serializeRecord r)

/-- The position whose ten bytes begin at byte `off` of an image (42_record.md R180). -/
def positionAt (img : List Byte) (off : Nat) : Position where
  lat := word32At img off
  lon := word32At img (off + 4)
  alt := word16At img (off + 8)

/-- The record whose fields are the bytes of an image at the offsets of 42_record.md R180; none when the status byte is
not valid (R185, R187). -/
def recordOfImage (img : List Byte) : Option TelemetryRecord :=
  (RecordStatus.ofByte (byteAt img 60)).map fun st =>
    { serial := Vector.ofFn fun j => byteAt img j.val
      cs := positionAt img 20
      ac := positionAt img 30
      vel := { v0 := word32At img 40, v1 := word32At img 44, v2 := word32At img 48 }
      ts := { year := word16At img 52, month := byteAt img 54, day := byteAt img 55, ms := word32At img 56 }
      status := st }

/-- `Deserialize(bits)`; none is MalformedRecord, whose one cause is the status byte (42_record.md R187). -/
def deserializeBits (bs : List Bit) : Option TelemetryRecord :=
  recordOfImage (bitsBytes Config.recordBytes bs)

/-- SERIALIZE: the serialized record of an image, or ILLEGAL_OPERAND when its status byte is not valid
(42_record.md R190). -/
def execSerialize (img : List Byte) (s : State) : Outcome State Fault Refusal :=
  .next (match recordOfImage img with
    | none => s.raise .illegalOperand
    | some r => s.respond .ok (bitsBytes Config.recordBytes (serializeRecord r)))

/-- DESERIALIZE: the record image of the record of a 488-bit layout, or MALFORMED_RECORD (42_record.md R191). -/
def execDeserialize (img : List Byte) (s : State) : Outcome State Fault Refusal :=
  .next (match deserializeBits (bytesBits img) with
    | none => s.raise .malformedRecord
    | some r => s.respond .ok (recordImage r))

end Sys2Proof.Machine
end

