-- ==== Sys2Proof/Machine/Framer.lean ====
section
/-! DEFINITION. The message framer, FRAME and UNFRAME: 43_framer.md R210 to R222. -/

namespace Sys2Proof.Machine

open Host

/-! ## Framing -/

/-- The serialized bits with 7 zero bits appended: the padded stream f, 495 bits (43_framer.md R212). -/
def padStream (bs : List Bit) : List Bit :=
  bs ++ List.replicate Config.padBits false

/-- D_j: the 11-bit group j of a padded stream, its first bit the most significant (43_framer.md R213). -/
def groupData (f : List Bit) (j : Nat) : Data :=
  bitsField Config.dataBits (sliceBits (Config.dataBits * j) Config.dataBits f)

/-- The 45 codeword words of a record's Message (43_framer.md R210, R213, R215). -/
def messageWords (r : TelemetryRecord) : List Word16 :=
  (List.range Config.messageBlocks).map fun j => encodeData (groupData (padStream (serializeRecord r)) j)

/-- The packed Message of codeword words: each as two bytes, big-endian, in block order (43_framer.md R211). -/
def packWords (ws : List Word16) : List Byte :=
  ws.flatMap bytes16

/-- `Frame` of a record: its 90-byte Message (43_framer.md R215). -/
def frameRecord (r : TelemetryRecord) : List Byte :=
  packWords (messageWords r)

/-! ## Unframing -/

/-- The outcome of unframing (43_framer.md R216). -/
inductive UnframeResult where
  /-- A record, and whether any block was corrected. -/
  | record (r : TelemetryRecord) (anyCorrected : Bool)
  /-- UnrecoverableChannel with the block index. -/
  | unrecoverableChannel (block : Nat)
  /-- InvalidRecord. -/
  | invalidRecord
  deriving DecidableEq, Repr

/-- The codeword words of a packed Message: word j is bytes 2j and 2j + 1 (43_framer.md R211). -/
def unpackWords (msg : List Byte) : List Word16 :=
  (List.range Config.messageBlocks).map fun j => word16At msg (2 * j)

/-- Every block decoded, in order (43_framer.md R216). -/
def decodeBlocks (msg : List Byte) : List (Data × DecodeStatus) :=
  (unpackWords msg).map decodeWord

/-- The data bits of the decoded blocks, 495 bits (43_framer.md R216). -/
def blockBits (blocks : List (Data × DecodeStatus)) : List Bit :=
  blocks.flatMap fun b => fieldBits b.1

/-- `Unframe(msg)`: the least uncorrectable block first, then the record of the first 488 data bits, the padding dropped
unread (43_framer.md R216 to R220, 60_exceptions.md R251). -/
def unframeMessage (msg : List Byte) : UnframeResult :=
  match (decodeBlocks msg).findIdx? fun b => b.2.isUncorrectable with
  | some j => .unrecoverableChannel j
  | none =>
    match deserializeBits ((blockBits (decodeBlocks msg)).take Config.recordBits) with
    | none => .invalidRecord
    | some r => .record r (anyCorrected ((decodeBlocks msg).map Prod.snd))

/-! ## Commands -/

/-- FRAME: the Message of a record image, or ILLEGAL_OPERAND when its status byte is not valid (43_framer.md R221). -/
def execFrame (img : List Byte) (s : State) : Outcome State Fault Refusal :=
  .next (match recordOfImage img with
    | none => s.raise .illegalOperand
    | some r => s.respond .ok (frameRecord r))

/-- UNFRAME: the record image and any_corrected of a Message, or UNRECOVERABLE_CHANNEL with the block index, or
INVALID_RECORD (43_framer.md R222). -/
def execUnframe (msg : List Byte) (s : State) : Outcome State Fault Refusal :=
  .next (match unframeMessage msg with
    | .unrecoverableChannel j => s.respond .unrecoverableChannel [BitVec.ofNat 8 j]
    | .invalidRecord => s.raise .invalidRecord
    | .record r ac => s.respond .ok (recordImage r ++ [flagByte ac]))

end Sys2Proof.Machine
end

