-- ==== Sys2Proof/Machine/Dispatch.lean ====
section
/-! DEFINITION. One arm per command. -/

namespace Sys2Proof.Machine

open Host

def exec (i : Instr) (s : State) : Host.Outcome State Fault Refusal :=
  match i with
  | .bbClear => Sys2Proof.Machine.execBbClear s
  | .bbPush b => Sys2Proof.Machine.execBbPush b s
  | .bbPop => Sys2Proof.Machine.execBbPop s
  | .bbLen => Sys2Proof.Machine.execBbLen s
  | .bbCap => Sys2Proof.Machine.execBbCap s
  | .bbGet ix => Sys2Proof.Machine.execBbGet ix s
  | .bbLoadb xs => Sys2Proof.Machine.execBbLoadb xs s
  | .encode d => Sys2Proof.Machine.execEncode d s
  | .decode w => Sys2Proof.Machine.execDecode w s
  | .serialize img => Sys2Proof.Machine.execSerialize img s
  | .deserialize img => Sys2Proof.Machine.execDeserialize img s
  | .frame img => Sys2Proof.Machine.execFrame img s
  | .unframe msg => Sys2Proof.Machine.execUnframe msg s

end Sys2Proof.Machine
end

