-- ==== Sys2Proof/Machine/Port.lean ====
section
/-! DEFINITION. The command port: one whole transaction, and the answer to a request that is no command (30_encoding.md
R60, R62, R66 to R68, R72, 60_exceptions.md R248 to R250). -/

namespace Sys2Proof.Machine

open Host

/-- The response status of a request that is no command (30_encoding.md R72). -/
def illegalStatus : IllegalRequest → RspStatus
  | .illegalOpcode => .illegalOpcode
  | .illegalOperand => .illegalOperand

/-- The answer to a request that is no command: its status, no result bytes, no state change (60_exceptions.md R241). -/
def State.answerIllegal (s : State) (e : IllegalRequest) : State :=
  s.raise (illegalStatus e)

/-- One whole transaction: the request is decoded and its command performed, or it is answered as illegal
(30_encoding.md R60, R62, R72). -/
def performRequest (req : List Byte) (s : State) : Outcome State Fault Refusal :=
  match decode req with
  | .ok i => exec i s
  | .error e => .next (s.answerIllegal e)

end Sys2Proof.Machine
end

