-- ==== Sys2Proof/Machine/Step.lean ====
section
/-! DEFINITION. One step of the block: one event at the command port. -/

namespace Sys2Proof.Machine

open Host

/-- One step: the host's next event is taken and carried out whole (20_memory.md R48, R50). With none to come the block
waits and nothing changes (60_exceptions.md R254; log 3). -/
def step (s : State) : Outcome State Fault Refusal :=
  match s.inputs with
  | [] => .next s
  | .request req :: evs => performRequest req (s.withInputs evs)
  | .earlyRequest _ :: _ => .refused .requestBeforeResponse
  | .reset :: evs => .next (s.withInputs evs).resetBlock
  | .resetDuring _ :: evs => .next (s.withInputs evs).resetBlock

/-- The state in which the host's next event is the request of this opcode-table word, before all it was to do. -/
def State.withFetchWord (s : State) (nbits w : Nat) : State :=
  s.withInputs (.request (tableRequest nbits w) :: s.inputs)

end Sys2Proof.Machine
end

