-- ==== Sys2Proof/Machine/Assembler.lean ====
section
/-! DEFINITION. The textual syntax of commands and the pseudo-instructions: 30_encoding.md R73 and R74. No step of the
block uses it (log 16). -/

namespace Sys2Proof.Machine

/-! ## Lines and their requests -/

/-- A line of assembly: the thirteen commands (30_encoding.md R73) and the two pseudo-instructions (R74). An operand that
the request carries in a wider field than its type is held in that field's width, so that a line such as `BB.PUSH 2`,
which the block answers with ILLEGAL_OPERAND, can be written. -/
inductive AsmLine where
  | bbClear
  | bbPush (b : Byte)
  | bbPop
  | bbLen
  | bbCap
  | bbGet (i : Word16)
  | bbLoadb (xs : List Byte)
  | encode (d : Word16)
  | decode (w : Word16)
  | serialize (img : List Byte)
  | deserialize (img : List Byte)
  | frame (img : List Byte)
  | unframe (msg : List Byte)
  /-- The pseudo-instruction `BB.NEW`. -/
  | bbNew
  /-- The pseudo-instruction `BB.PUSHBITS b0 b1 ... bn`. -/
  | bbPushbits (bs : List Bit)
  deriving DecidableEq, Repr

/-- The requests of a line, in the order the host sends them (30_encoding.md R73, R74). -/
def assemble : AsmLine → List (List Byte)
  | .bbClear => [[Opcode.bbClear.byte]]
  | .bbPush b => [[Opcode.bbPush.byte, b]]
  | .bbPop => [[Opcode.bbPop.byte]]
  | .bbLen => [[Opcode.bbLen.byte]]
  | .bbCap => [[Opcode.bbCap.byte]]
  | .bbGet i => [Opcode.bbGet.byte :: bytes16 i]
  | .bbLoadb xs => [Opcode.bbLoadb.byte :: (bytes16 (BitVec.ofNat 16 xs.length) ++ xs)]
  | .encode d => [Opcode.encode.byte :: bytes16 d]
  | .decode w => [Opcode.decode.byte :: bytes16 w]
  | .serialize img => [Opcode.serialize.byte :: img]
  | .deserialize img => [Opcode.deserialize.byte :: img]
  | .frame img => [Opcode.frame.byte :: img]
  | .unframe msg => [Opcode.unframe.byte :: msg]
  | .bbNew => [[Opcode.bbClear.byte]]
  | .bbPushbits bs => bs.map fun b => [Opcode.bbPush.byte, flagByte b]

/-- A serial string shorter than 20 characters, padded at its end with 0x00 bytes (42_record.md R181); none when it is
longer. -/
def padSerial (cs : List Byte) : Option (Vector Byte 20) :=
  if cs.length ≤ 20 then some (Vector.ofFn fun j => byteAt cs j.val) else none

/-! ## Reading the text -/

/-- A reader of text: what it reads off the front, and the rest. -/
abbrev Reader := StateT (List Char) Option

/-- The blank characters between the parts of a line. -/
def isBlank (c : Char) : Bool :=
  c == ' ' || c == '\n'

/-- Skips blanks. -/
def readBlanks : Reader Unit :=
  modify fun cs => cs.dropWhile isBlank

/-- Reads exactly these characters, after any blanks. -/
def readExactly (want : List Char) : Reader Unit := do
  readBlanks
  let cs ← get
  if want.isPrefixOf cs then set (cs.drop want.length) else failure

/-- Whether these characters come next, after any blanks; they are read if so. -/
def readIf (want : List Char) : Reader Bool := do
  readBlanks
  let cs ← get
  if want.isPrefixOf cs then
    set (cs.drop want.length)
    pure true
  else pure false

/-- The value of a digit of base 16; none for another character. -/
def digitValue (c : Char) : Option Nat :=
  if '0'.toNat ≤ c.toNat ∧ c.toNat ≤ '9'.toNat then some (c.toNat - '0'.toNat)
  else if 'a'.toNat ≤ c.toNat ∧ c.toNat ≤ 'f'.toNat then some (c.toNat - 'a'.toNat + 10)
  else if 'A'.toNat ≤ c.toNat ∧ c.toNat ≤ 'F'.toNat then some (c.toNat - 'A'.toNat + 10)
  else none

/-- Whether a character is a digit of this base. -/
def isDigitOf (base : Nat) (c : Char) : Bool :=
  ((digitValue c).getD 16) < base

/-- The number these digits spell. -/
def digitsValue (base : Nat) (cs : List Char) : Nat :=
  cs.foldl (fun acc c => base * acc + (digitValue c).getD 0) 0

/-- Reads at least one digit of this base. -/
def readDigits (base : Nat) : Reader (List Char) := do
  let cs ← get
  let ds := cs.takeWhile (isDigitOf base)
  if ds.isEmpty then failure
  else
    set (cs.drop ds.length)
    pure ds

/-- A number, "decimal or `0x` hexadecimal" (30_encoding.md R73). -/
def readNumber : Reader Nat := do
  readBlanks
  if ← readIf ['0', 'x'] then return digitsValue 16 (← readDigits 16)
  else return digitsValue 10 (← readDigits 10)

/-- A number that fits a field of this width. -/
def readField (w : Nat) : Reader (BitVec w) := do
  let n ← readNumber
  if n < 2 ^ w then pure (BitVec.ofNat w n) else failure

/-- The quotient rounded to the nearest integer, a tie to the even one. -/
def roundDiv (n d : Nat) : Nat :=
  let q := n / d
  let r := n % d
  if 2 * r < d then q else if d < 2 * r then q + 1 else q + q % 2

/-- The binary32 pattern nearest to the magnitude n / 10^k, a tie to the even one. PRESUMED: IEEE 754, which the spec uses
only to write its examples (42_record.md R188, 93_implementation_defined.md G2; log 16). -/
def binary32Magnitude (n k : Nat) : Nat :=
  if n = 0 then 0
  else
    let d := 10 ^ k
    let e₀ : Int := (Nat.log2 n : Int) - Nat.log2 d
    let e := if n * 2 ^ (-e₀).toNat < d * 2 ^ e₀.toNat then e₀ - 1 else e₀
    let e := max e (-126)
    let m := roundDiv (n * 2 ^ (23 - e).toNat) (d * 2 ^ (e - 23).toNat)
    min ((e + 126).toNat * 2 ^ 23 + m) 0x7F800000

/-- A float operand: a decimal number, or its 32-bit pattern as a `0x` number. -/
def readFloat : Reader (BitVec 32) := do
  if ← readIf ['0', 'x'] then
    let n := digitsValue 16 (← readDigits 16)
    if n < 2 ^ 32 then return BitVec.ofNat 32 n else failure
  else
    let neg ← readIf ['-']
    let whole ← readDigits 10
    let cs ← get
    let frac := if cs.head? = some '.' then (cs.drop 1).takeWhile (isDigitOf 10) else []
    if cs.head? = some '.' then set (cs.drop (1 + frac.length))
    let mag := binary32Magnitude (digitsValue 10 (whole ++ frac)) frac.length
    return BitVec.ofNat 32 (mag + if neg then 2 ^ 31 else 0)

/-- The bytes that hexadecimal digits spell, two a byte; none when a digit is left over or is no digit. -/
def hexBytes : List Char → Option (List Byte)
  | [] => some []
  | [_] => none
  | a :: b :: t => do
    let hi ← digitValue a
    let lo ← digitValue b
    return BitVec.ofNat 8 (16 * hi + lo) :: (← hexBytes t)

/-- The rest of the line as exactly `n` bytes of hexadecimal, blanks ignored (30_encoding.md R73). -/
def readHex (n : Nat) : Reader (List Byte) := do
  let cs ← get
  let xs ← (hexBytes (cs.filter fun c => !isBlank c) : Option (List Byte))
  if xs.length = n then
    set ([] : List Char)
    pure xs
  else failure

/-- A quoted serial string, each character its ASCII code, padded with 0x00 (30_encoding.md R73, 42_record.md R181). -/
def readSerial : Reader (Vector Byte 20) := do
  readExactly [Char.ofNat 34]
  let cs ← get
  let body := cs.takeWhile fun c => c.toNat != 34
  set (cs.drop body.length)
  readExactly [Char.ofNat 34]
  if body.all fun c => c.toNat < 128 then
    (padSerial (body.map fun c => BitVec.ofNat 8 c.toNat) : Option (Vector Byte 20))
  else failure

/-- A position `(lat, lon, alt)` (30_encoding.md R73). -/
def readPosition : Reader Position := do
  readExactly ['(']
  let lat ← readFloat
  readExactly [',']
  let lon ← readFloat
  readExactly [',']
  let alt ← readField 16
  readExactly [')']
  return { lat, lon, alt }

/-- A velocity `(v0, v1, v2)` (30_encoding.md R73). -/
def readVelocity : Reader Velocity := do
  readExactly ['(']
  let v0 ← readFloat
  readExactly [',']
  let v1 ← readFloat
  readExactly [',']
  let v2 ← readFloat
  readExactly [')']
  return { v0, v1, v2 }

/-- A timestamp `(year, month, day, ms)` (30_encoding.md R73). -/
def readTimestamp : Reader Timestamp := do
  readExactly ['(']
  let year ← readField 16
  readExactly [',']
  let month ← readField 8
  readExactly [',']
  let day ← readField 8
  readExactly [',']
  let ms ← readField 32
  readExactly [')']
  return { year, month, day, ms }

/-- A status, `Ok` or `Emergency` (30_encoding.md R73). -/
def readStatus : Reader RecordStatus := do
  if ← readIf "Ok".toList then return .ok
  else
    readExactly "Emergency".toList
    return .emergency

/-- A record in braces, its fields in the order of 30_encoding.md R73. -/
def readRecordFields : Reader TelemetryRecord := do
  readExactly "serial=".toList
  let serial ← readSerial
  readExactly ",".toList
  readExactly "cs=".toList
  let cs ← readPosition
  readExactly ",".toList
  readExactly "ac=".toList
  let ac ← readPosition
  readExactly ",".toList
  readExactly "vel=".toList
  let vel ← readVelocity
  readExactly ",".toList
  readExactly "ts=".toList
  let ts ← readTimestamp
  readExactly ",".toList
  readExactly "status=".toList
  let status ← readStatus
  readExactly [Char.ofNat 125]
  return { serial, cs, ac, vel, ts, status }

/-- A `<record>`: its fields in braces, or its image as 61 bytes of hexadecimal (30_encoding.md R73). -/
def readRecord : Reader (List Byte) := do
  if ← readIf [Char.ofNat 123] then return recordImage (← readRecordFields)
  else readHex Config.recordBytes

/-- A list of bytes split by commas, at most `fuel` of them after the first. -/
def readMoreBytes : Nat → Reader (List Byte)
  | 0 => pure []
  | fuel + 1 => do
    if ← readIf [','] then
      let x ← readField 8
      return x :: (← readMoreBytes fuel)
    else return []

/-- The data bytes of BB.LOADB, at most 65535; there may be none (30_encoding.md R73). -/
def readByteList : Reader (List Byte) := do
  readBlanks
  if (← get).isEmpty then return []
  else
    let x ← readField 8
    return x :: (← readMoreBytes 65534)

/-- The bits of BB.PUSHBITS, split by blanks, at most `fuel` of them (30_encoding.md R74). -/
def readBits : Nat → Reader (List Bit)
  | 0 => pure []
  | fuel + 1 => do
    readBlanks
    if (← get).isEmpty then return []
    else
      let b ← readField 1
      return b.getLsbD 0 :: (← readBits fuel)

/-- The operands a mnemonic takes (30_encoding.md R73, R74). -/
def readOperands (mnemonic : List Char) : Reader AsmLine :=
  if mnemonic = "BB.CLEAR".toList then pure .bbClear
  else if mnemonic = "BB.PUSH".toList then AsmLine.bbPush <$> readField 8
  else if mnemonic = "BB.POP".toList then pure .bbPop
  else if mnemonic = "BB.LEN".toList then pure .bbLen
  else if mnemonic = "BB.CAP".toList then pure .bbCap
  else if mnemonic = "BB.GET".toList then AsmLine.bbGet <$> readField 16
  else if mnemonic = "BB.LOADB".toList then AsmLine.bbLoadb <$> readByteList
  else if mnemonic = "ENCODE".toList then AsmLine.encode <$> readField 16
  else if mnemonic = "DECODE".toList then AsmLine.decode <$> readField 16
  else if mnemonic = "SERIALIZE".toList then AsmLine.serialize <$> readRecord
  else if mnemonic = "DESERIALIZE".toList then AsmLine.deserialize <$> readHex Config.recordBytes
  else if mnemonic = "FRAME".toList then AsmLine.frame <$> readRecord
  else if mnemonic = "UNFRAME".toList then AsmLine.unframe <$> readHex Config.messageBytes
  else if mnemonic = "BB.NEW".toList then pure .bbNew
  else if mnemonic = "BB.PUSHBITS".toList then do
    let cs ← get
    AsmLine.bbPushbits <$> readBits cs.length
  else failure

/-- A whole line: the mnemonic, its operands, nothing after them (30_encoding.md R73). -/
def readLine : Reader AsmLine := do
  readBlanks
  let cs ← get
  let mnemonic := cs.takeWhile fun c => !isBlank c
  set (cs.drop mnemonic.length)
  let line ← readOperands mnemonic
  readBlanks
  if (← get).isEmpty then return line else failure

/-- The line a text is; none when it is no line of the syntax. -/
def parseLine (text : List Char) : Option AsmLine :=
  (readLine.run text).map Prod.fst

/-- The requests of a line of text, in order; none when it is no line of the syntax (30_encoding.md R73, R74). -/
def assembleText (text : List Char) : Option (List (List Byte)) :=
  (parseLine text).map assemble

end Sys2Proof.Machine
end

