-- ==== Sys2Proof/Safety.lean ====
section
/-! DEFINITION. The invariants of the BitBuffer and what a safe step is: 10_state.md R21, R22, 70_reset_and_hazards.md
R276, R277. -/

namespace Sys2Proof.Machine

/-- The invariants the spec gives the state: `0 ≤ BB.len ≤ BB_N` (10_state.md R21), and `BB.cell[i] ≠ UNSET` exactly when
`i < BB.len` (R22); with the canonical form of the cell store. -/
structure State.Inv (s : State) : Prop where
  /-- The length is in range (10_state.md R21). -/
  lenInRange : s.len.toNat ≤ s.bbN.toNat
  /-- The cell store is in its canonical form. -/
  cellsCanonical : s.cells.wf
  /-- A cell is set exactly when its index is below the length (10_state.md R22). -/
  setBelowLen : ∀ i : Nat, s.cells.read i ≠ none ↔ i < s.len.toNat

/-- The host keeps its one duty in what it is to do next: no request before the response to the previous one
(70_reset_and_hazards.md R276). -/
def State.hostWaits (s : State) : Prop :=
  ∀ ev ∈ s.inputs, ∀ req, ev ≠ .earlyRequest req

/-- A safe outcome: the machine goes on (70_reset_and_hazards.md R277, "no hang and no stuck state"). -/
def goesOn (o : Host.Outcome State Fault Refusal) : Prop :=
  ∃ t, o = .next t

end Sys2Proof.Machine
end

