-- ==== Sys2Proof/Certificates/Slice0/Obligations.lean ====
section
/-! DEFINITION. The statements for the provers, and the few words they are written in. -/

namespace Sys2Proof.Statements

open Sys2Proof.Machine

/-- The state in which the host's next event is this request, before all it was to do. -/
def sent (s : State) (req : List Byte) : State :=
  { s with inputs := .request req :: s.inputs }

/-- The state with one more response and nothing else changed. -/
def answered (s : State) (rsp : List Byte) : State :=
  { s with responses := s.responses ++ [rsp] }

/-- The BitBuffer and its capacity are the same in both states: the whole architectural state (10_state.md R20). -/
def sameBuffer (s t : State) : Prop :=
  t.bbN = s.bbN ∧ t.len = s.len ∧ t.cells = s.cells

/-- A bit as a byte: 0b0000000b (30_encoding.md R70). -/
def bitByte (b : Bit) : Byte :=
  if b then 0x01#8 else 0x00#8

/-- The high byte of a 16-bit value. -/
def hi (v : Word16) : Byte :=
  v.extractLsb' 8 8

/-- The low byte of a 16-bit value. -/
def lo (v : Word16) : Byte :=
  v.extractLsb' 0 8

/-- The number of bits set in a word. -/
def weight (e : Word16) : Nat :=
  (fieldBits e).count true

/-- The word whose one set bit is position p: 2^(15 - p) (41_codec.md R140, R154). -/
def positionMask (p : Nat) : Word16 :=
  BitVec.ofNat 16 (2 ^ (15 - p))

/-- The data bits of a word as received: W[12] ‖ W[10:8] ‖ W[6:0] (41_codec.md R140, R141). -/
def receivedData (w : Word16) : Data :=
  w.extractLsb' 12 1 ++ w.extractLsb' 8 3 ++ w.extractLsb' 0 7

/-- The word of block j of a packed Message: bytes 2j and 2j + 1 (43_framer.md R211). -/
def blockWord (msg : List Byte) (j : Nat) : Word16 :=
  byteAt msg (2 * j) ++ byteAt msg (2 * j + 1)

/-- The 488 record bits that the decoded blocks of a Message carry (43_framer.md R216). -/
def messageBits (msg : List Byte) : List Bit :=
  ((List.range 45).flatMap fun j => fieldBits (decodeWord (blockWord msg j)).1).take 488

/-- A status byte is valid (42_record.md R185). -/
def validStatus (b : Byte) : Prop :=
  b = 0x00#8 ∨ b = 0x01#8

/-- The status byte: 0x00 for Ok, 0x01 for Emergency (00_scope.md R9). -/
def statusByte : RecordStatus → Byte
  | .ok => 0x00#8
  | .emergency => 0x01#8

/-- The 61 bytes of a record, field by field (42_record.md R180). -/
def fieldBytes (r : TelemetryRecord) : List Byte :=
  r.serial.toList ++
  bytes32 r.cs.lat ++ bytes32 r.cs.lon ++ bytes16 r.cs.alt ++
  bytes32 r.ac.lat ++ bytes32 r.ac.lon ++ bytes16 r.ac.alt ++
  bytes32 r.vel.v0 ++ bytes32 r.vel.v1 ++ bytes32 r.vel.v2 ++
  bytes16 r.ts.year ++ [r.ts.month] ++ [r.ts.day] ++ bytes32 r.ts.ms ++
  [statusByte r.status]

/-- The statuses an instruction can be answered with, and how many result bytes follow each (30_encoding.md R69, R70). -/
def answersOf : Instr → List (Byte × Nat)
  | .bbClear => [(0x00#8, 0)]
  | .bbPush _ => [(0x00#8, 0), (0x01#8, 0)]
  | .bbPop => [(0x00#8, 1), (0x02#8, 0)]
  | .bbLen => [(0x00#8, 2)]
  | .bbCap => [(0x00#8, 2)]
  | .bbGet _ => [(0x00#8, 1), (0x03#8, 0)]
  | .bbLoadb _ => [(0x00#8, 0), (0x01#8, 0)]
  | .encode _ => [(0x00#8, 2)]
  | .decode _ => [(0x00#8, 4)]
  | .serialize _ => [(0x00#8, 61), (0x07#8, 0)]
  | .deserialize _ => [(0x00#8, 61), (0x04#8, 0)]
  | .frame _ => [(0x00#8, 90), (0x07#8, 0)]
  | .unframe _ => [(0x00#8, 62), (0x05#8, 1), (0x06#8, 0)]

/-- The commands outside the BitBuffer family (10_state.md R29). -/
def outsideBitBuffer : Instr → Bool
  | .bbClear => false
  | .bbPush _ => false
  | .bbPop => false
  | .bbLen => false
  | .bbCap => false
  | .bbGet _ => false
  | .bbLoadb _ => false
  | .encode _ => true
  | .decode _ => true
  | .serialize _ => true
  | .deserialize _ => true
  | .frame _ => true
  | .unframe _ => true

end Sys2Proof.Statements

open Sys2Proof Sys2Proof.Machine Sys2Proof.Statements

/-! ## The BitBuffer commands (40_bitbuffer.md) -/

/-- R100. BB.CLEAR: request, malformed requests, effect and frame. -/
def Obligations.BbClearEmptiesTheBuffer : Prop :=
  ∀ s : State,
    step (sent s [0x01#8]) = exec .bbClear s ∧
    (∀ ops : List Byte, ops ≠ [] → step (sent s (0x01#8 :: ops)) = .next (answered s [0x07#8])) ∧
    ∃ t, exec .bbClear s = .next t ∧ t.len = 0#16 ∧ (∀ i, t.cells.read i = none) ∧
      t.bbN = s.bbN ∧ t.inputs = s.inputs ∧ t.responses = s.responses ++ [[0x00#8]]

/-- R101. BB.PUSH: request, malformed requests, effect and frame below the capacity, CAPACITY_EXCEEDED at it. -/
def Obligations.BbPushAppendsOneBitBelowCapacity : Prop :=
  ∀ s : State,
    (∀ b, step (sent s [0x02#8, bitByte b]) = exec (.bbPush b) s) ∧
    (∀ ops : List Byte, ops.length ≠ 1 → step (sent s (0x02#8 :: ops)) = .next (answered s [0x07#8])) ∧
    (∀ x : Byte, x.extractLsb' 1 7 ≠ 0#7 → step (sent s [0x02#8, x]) = .next (answered s [0x07#8])) ∧
    (∀ b, s.len.toNat < s.bbN.toNat →
      ∃ t, exec (.bbPush b) s = .next t ∧
        (∀ i, t.cells.read i = if i = s.len.toNat then some b else s.cells.read i) ∧
        t.len.toNat = s.len.toNat + 1 ∧
        t.bbN = s.bbN ∧ t.inputs = s.inputs ∧ t.responses = s.responses ++ [[0x00#8]]) ∧
    (∀ b, s.len = s.bbN → exec (.bbPush b) s = .next (answered s [0x01#8]))

/-- R102. BB.POP: request, malformed requests, EMPTY on an empty buffer, else the last bit leaves the buffer. -/
def Obligations.BbPopRemovesTheLastBit : Prop :=
  ∀ s : State,
    step (sent s [0x03#8]) = exec .bbPop s ∧
    (∀ ops : List Byte, ops ≠ [] → step (sent s (0x03#8 :: ops)) = .next (answered s [0x07#8])) ∧
    (s.len = 0#16 → exec .bbPop s = .next (answered s [0x02#8])) ∧
    (s.Inv → s.len ≠ 0#16 →
      ∃ b t, s.cells.read (s.len.toNat - 1) = some b ∧ exec .bbPop s = .next t ∧
        (∀ i, t.cells.read i = if i = s.len.toNat - 1 then none else s.cells.read i) ∧
        t.len.toNat = s.len.toNat - 1 ∧
        t.bbN = s.bbN ∧ t.inputs = s.inputs ∧ t.responses = s.responses ++ [[0x00#8, bitByte b]])

/-- R103. BB.LEN: request, malformed requests, the length in two bytes, nothing written. -/
def Obligations.BbLenReturnsTheLength : Prop :=
  ∀ s : State,
    step (sent s [0x04#8]) = exec .bbLen s ∧
    (∀ ops : List Byte, ops ≠ [] → step (sent s (0x04#8 :: ops)) = .next (answered s [0x07#8])) ∧
    exec .bbLen s = .next (answered s [0x00#8, hi s.len, lo s.len])

/-- R104. BB.CAP: request, malformed requests, the capacity in two bytes, nothing written. -/
def Obligations.BbCapReturnsTheCapacity : Prop :=
  ∀ s : State,
    step (sent s [0x05#8]) = exec .bbCap s ∧
    (∀ ops : List Byte, ops ≠ [] → step (sent s (0x05#8 :: ops)) = .next (answered s [0x07#8])) ∧
    exec .bbCap s = .next (answered s [0x00#8, hi s.bbN, lo s.bbN])

/-- R105. BB.GET: request, malformed requests, the bit below the length, INDEX_OUT_OF_RANGE from the length on; nothing
written. -/
def Obligations.BbGetReadsOnlyBelowTheLength : Prop :=
  ∀ s : State, ∀ i : Word16,
    step (sent s [0x06#8, hi i, lo i]) = exec (.bbGet i) s ∧
    (∀ ops : List Byte, ops.length ≠ 2 → step (sent s (0x06#8 :: ops)) = .next (answered s [0x07#8])) ∧
    (s.len.toNat ≤ i.toNat → exec (.bbGet i) s = .next (answered s [0x03#8])) ∧
    (s.Inv → i.toNat < s.len.toNat →
      ∃ b, s.cells.read i.toNat = some b ∧ exec (.bbGet i) s = .next (answered s [0x00#8, bitByte b]))

/-- R106. BB.LOADB: request, malformed requests, CAPACITY_EXCEEDED when the bits do not fit, else the bits of the bytes
are the whole contents. -/
def Obligations.BbLoadbReplacesTheContents : Prop :=
  ∀ s : State, ∀ xs : List Byte,
    (xs.length ≤ 65535 →
      step (sent s (0x07#8 :: hi (BitVec.ofNat 16 xs.length) :: lo (BitVec.ofNat 16 xs.length) :: xs))
        = exec (.bbLoadb xs) s) ∧
    (∀ ops : List Byte, (∀ (kh kl : Byte) (ys : List Byte), ops = kh :: kl :: ys → ys.length ≠ (kh ++ kl).toNat) →
      step (sent s (0x07#8 :: ops)) = .next (answered s [0x07#8])) ∧
    (s.bbN.toNat < 8 * xs.length → exec (.bbLoadb xs) s = .next (answered s [0x01#8])) ∧
    (8 * xs.length ≤ s.bbN.toNat →
      ∃ t, exec (.bbLoadb xs) s = .next t ∧
        (∀ j k, ∀ hj : j < xs.length, k < 8 → t.cells.read (8 * j + k) = some (xs[j].getLsbD (7 - k))) ∧
        (∀ i, 8 * xs.length ≤ i → t.cells.read i = none) ∧
        t.len.toNat = 8 * xs.length ∧
        t.bbN = s.bbN ∧ t.inputs = s.inputs ∧ t.responses = s.responses ++ [[0x00#8]])

/-! ## The codec commands (41_codec.md) -/

/-- R152. ENCODE: request, malformed requests, the codeword word, nothing written; the corner cases and the
example. -/
def Obligations.EncodeReturnsTheCodeword : Prop :=
  ∀ s : State, ∀ d : Data,
    step (sent s [0x10#8, hi (d.setWidth 16), lo (d.setWidth 16)]) = exec (.encode d) s ∧
    (∀ ops : List Byte, ops.length ≠ 2 → step (sent s (0x10#8 :: ops)) = .next (answered s [0x07#8])) ∧
    (∀ v : Word16, v.extractLsb' 11 5 ≠ 0#5 → step (sent s [0x10#8, hi v, lo v]) = .next (answered s [0x07#8])) ∧
    exec (.encode d) s = .next (answered s [0x00#8, hi (encodeData d), lo (encodeData d)]) ∧
    encodeData 0#11 = 0x0000#16 ∧ encodeData 0x7FF#11 = 0xFFFF#16 ∧ encodeData 0x5A3#11 = 0x53A3#16 ∧
    decodeWord (encodeData d) = (d, .clean)

/-- R153's operands, encoding, result and errors. DECODE: request, malformed requests, the data, the DecodeStatus code
and the position; nothing written. -/
def Obligations.DecodeReturnsDataAndStatus : Prop :=
  ∀ s : State, ∀ w : Word16,
    step (sent s [0x11#8, hi w, lo w]) = exec (.decode w) s ∧
    (∀ ops : List Byte, ops.length ≠ 2 → step (sent s (0x11#8 :: ops)) = .next (answered s [0x07#8])) ∧
    (∀ d, decodeWord w = (d, .clean) →
      exec (.decode w) s = .next (answered s [0x00#8, hi (d.setWidth 16), lo (d.setWidth 16), 0x00#8, 0x00#8])) ∧
    (∀ d p, decodeWord w = (d, .correctedSingleBit p) →
      exec (.decode w) s =
        .next (answered s [0x00#8, hi (d.setWidth 16), lo (d.setWidth 16), 0x01#8, p.setWidth 8])) ∧
    (∀ d, decodeWord w = (d, .uncorrectableMultiBit) →
      exec (.decode w) s = .next (answered s [0x00#8, hi (d.setWidth 16), lo (d.setWidth 16), 0x02#8, 0x00#8]))

/-! ## The record commands (42_record.md) -/

/-- R190. SERIALIZE: request, malformed requests, a valid image comes back whole, ILLEGAL_OPERAND for another status
byte; nothing written. -/
def Obligations.SerializeReturnsTheRecordBits : Prop :=
  ∀ s : State, ∀ img : List Byte,
    (img.length = 61 → step (sent s (0x20#8 :: img)) = exec (.serialize img) s) ∧
    (img.length ≠ 61 → step (sent s (0x20#8 :: img)) = .next (answered s [0x07#8])) ∧
    (∀ h : img.length = 61, validStatus img[60] → exec (.serialize img) s = .next (answered s (0x00#8 :: img))) ∧
    (∀ h : img.length = 61, ¬ validStatus img[60] → exec (.serialize img) s = .next (answered s [0x07#8]))

/-- R191. DESERIALIZE: request, malformed requests, a valid image comes back whole, MALFORMED_RECORD for another status
byte; nothing written. -/
def Obligations.DeserializeChecksOnlyTheStatus : Prop :=
  ∀ s : State, ∀ img : List Byte,
    (img.length = 61 → step (sent s (0x21#8 :: img)) = exec (.deserialize img) s) ∧
    (img.length ≠ 61 → step (sent s (0x21#8 :: img)) = .next (answered s [0x07#8])) ∧
    (∀ h : img.length = 61, validStatus img[60] → exec (.deserialize img) s = .next (answered s (0x00#8 :: img))) ∧
    (∀ h : img.length = 61, ¬ validStatus img[60] → exec (.deserialize img) s = .next (answered s [0x04#8]))

/-! ## The framer commands (43_framer.md) -/

/-- R221. FRAME: request, malformed requests, the Message of the record, ILLEGAL_OPERAND for a status byte that is not
valid; nothing written; the last block of an Ok and of an Emergency record. -/
def Obligations.FrameReturnsTheMessage : Prop :=
  ∀ s : State, ∀ img : List Byte,
    (img.length = 61 → step (sent s (0x30#8 :: img)) = exec (.frame img) s) ∧
    (img.length ≠ 61 → step (sent s (0x30#8 :: img)) = .next (answered s [0x07#8])) ∧
    (∀ h : img.length = 61, validStatus img[60] →
      ∃ r msg, recordOfImage img = some r ∧ recordImage r = img ∧ msg = frameRecord r ∧ msg.length = 90 ∧
        exec (.frame img) s = .next (answered s (0x00#8 :: msg)) ∧
        (img[60] = 0x00#8 → blockWord msg 44 = 0x0000#16) ∧
        (img[60] = 0x01#8 → blockWord msg 44 = 0x6900#16)) ∧
    (∀ h : img.length = 61, ¬ validStatus img[60] → exec (.frame img) s = .next (answered s [0x07#8]))

/-- R217, R219, R220. UNFRAME: request, malformed requests, the least uncorrectable block first, then an invalid record,
else the record image and whether any block was corrected; nothing written. -/
def Obligations.UnframeReportsTheFirstFailure : Prop :=
  ∀ s : State, ∀ msg : List Byte,
    (msg.length = 90 → step (sent s (0x31#8 :: msg)) = exec (.unframe msg) s) ∧
    (msg.length ≠ 90 → step (sent s (0x31#8 :: msg)) = .next (answered s [0x07#8])) ∧
    (∀ j, j < 45 → (decodeWord (blockWord msg j)).2 = .uncorrectableMultiBit →
      (∀ k, k < j → (decodeWord (blockWord msg k)).2 ≠ .uncorrectableMultiBit) →
      exec (.unframe msg) s = .next (answered s [0x05#8, BitVec.ofNat 8 j])) ∧
    ((∀ j, j < 45 → (decodeWord (blockWord msg j)).2 ≠ .uncorrectableMultiBit) →
      ¬ validStatus (bitsField 8 ((messageBits msg).drop 480)) →
      exec (.unframe msg) s = .next (answered s [0x06#8])) ∧
    ((∀ j, j < 45 → (decodeWord (blockWord msg j)).2 ≠ .uncorrectableMultiBit) →
      validStatus (bitsField 8 ((messageBits msg).drop 480)) →
      ∃ ac : Bool, (ac = true ↔ ∃ j p, j < 45 ∧ (decodeWord (blockWord msg j)).2 = .correctedSingleBit p) ∧
        exec (.unframe msg) s = .next (answered s (0x00#8 :: (bitsBytes 61 (messageBits msg) ++ [bitByte ac]))))

/-! ## The command port (30_encoding.md) -/

/-- A request that decodes is performed whole: the step is the meaning of the decoded command, in the state where the
host's next event is the one after it. -/
def Obligations.StepRunsTheDecodedCommand : Prop :=
  ∀ (s : State) (req : List Byte) (evs : List HostEvent) (i : Instr),
    s.inputs = .request req :: evs → decode req = .ok i → step s = exec i { s with inputs := evs }

/-- R66, R67. An empty request and a reserved opcode byte, whatever follows it. -/
def Obligations.ReservedOpcodesAreIllegal : Prop :=
  ∀ s : State,
    step (sent s []) = .next (answered s [0x08#8]) ∧
    ∀ (op : Byte) (ops : List Byte),
      (op.toNat = 0x00 ∨ (0x08 ≤ op.toNat ∧ op.toNat ≤ 0x0F) ∨ (0x12 ≤ op.toNat ∧ op.toNat ≤ 0x1F) ∨
        (0x22 ≤ op.toNat ∧ op.toNat ≤ 0x2F) ∨ 0x32 ≤ op.toNat) →
      step (sent s (op :: ops)) = .next (answered s [0x08#8])

/-- R68. A listed opcode with a wrong length, or with a reserved operand bit set, is ILLEGAL_OPERAND; every other request
with a listed opcode decodes, whatever its other operand bits. -/
def Obligations.WrongLengthsAndReservedBitsAreIllegal : Prop :=
  ∀ (s : State) (o : Opcode) (ops : List Byte),
    (o.format.requestLength (o.byte :: ops) ≠ some (1 + ops.length) →
      step (sent s (o.byte :: ops)) = .next (answered s [0x07#8])) ∧
    (o = .bbPush → (byteAt ops 0).extractLsb' 1 7 ≠ 0#7 →
      step (sent s (o.byte :: ops)) = .next (answered s [0x07#8])) ∧
    (o = .encode → (byteAt ops 0).extractLsb' 3 5 ≠ 0#5 →
      step (sent s (o.byte :: ops)) = .next (answered s [0x07#8])) ∧
    (o.format.requestLength (o.byte :: ops) = some (1 + ops.length) →
      (o = .bbPush → (byteAt ops 0).extractLsb' 1 7 = 0#7) →
      (o = .encode → (byteAt ops 0).extractLsb' 3 5 = 0#5) →
      ∃ i : Instr, i.opcode = o ∧ decode (o.byte :: ops) = .ok i)

/-- Decode reads back what encode writes, for every well-formed instruction and every value of its operands. -/
def Obligations.DecodeOfEncodeIsTheInstruction : Prop :=
  ∀ i : Instr, i.wellFormed = true → decode (encode i) = .ok i

/-- Each request that decodes is the one encoding of a well-formed instruction: no operand bit is dropped. -/
def Obligations.EncodeOfDecodeIsTheRequest : Prop :=
  ∀ (req : List Byte) (i : Instr), decode req = .ok i → i.wellFormed = true ∧ encode i = req

/-- The example requests of 30_encoding.md R73, written out, decode to the commands they stand for. -/
def Obligations.ExampleRequestsDecode : Prop :=
  decode [0x01#8] = .ok .bbClear ∧ decode [0x02#8, 0x01#8] = .ok (.bbPush true) ∧
  decode [0x03#8] = .ok .bbPop ∧ decode [0x04#8] = .ok .bbLen ∧ decode [0x05#8] = .ok .bbCap ∧
  decode [0x06#8, 0x00#8, 0x02#8] = .ok (.bbGet 2#16) ∧
  decode [0x07#8, 0x00#8, 0x01#8, 0xA5#8] = .ok (.bbLoadb [0xA5#8]) ∧
  decode [0x10#8, 0x05#8, 0xA3#8] = .ok (.encode 0x5A3#11) ∧
  decode [0x11#8, 0x53#8, 0xA3#8] = .ok (.decode 0x53A3#16)

/-- R62. Every request a state with the spec's invariants is sent gets exactly one response, whose first byte is a status
byte of 30_encoding.md R69, and the block goes on. -/
def Obligations.EveryRequestGetsOneResponse : Prop :=
  ∀ (s : State) (req : List Byte), s.Inv →
    ∃ t st bytes, step (sent s req) = .next t ∧ t.responses = s.responses ++ [st :: bytes] ∧ st.toNat ≤ 0x08 ∧
      t.inputs = s.inputs

/-- R241. A response whose status is not OK leaves the BitBuffer and its capacity as they were, and the next request is
performed as if the failed one had not been sent. -/
def Obligations.ErrorResponsesChangeNoState : Prop :=
  ∀ (s t : State) (req : List Byte) (st : Byte) (bytes : List Byte),
    step (sent s req) = .next t → t.responses = s.responses ++ [st :: bytes] → st ≠ 0x00#8 →
      sameBuffer s t ∧
      ∀ (req' : List Byte) (u : State), step (sent s req') = .next u →
        ∃ v rsp, step (sent t req') = .next v ∧ sameBuffer u v ∧
          u.responses = s.responses ++ [rsp] ∧ v.responses = t.responses ++ [rsp]

/-- Each command's responses have a status the command can raise and the result length of that status; so no status above
0x08 is ever returned by a command. -/
def Obligations.ResponsesHaveTheirStatusAndLength : Prop :=
  ∀ (i : Instr) (s t : State), exec i s = .next t →
    ∃ st n bytes, (st, n) ∈ answersOf i ∧ bytes.length = n ∧ t.responses = s.responses ++ [st :: bytes] ∧
      t.inputs = s.inputs ∧ st.toNat ≤ 0x08

/-! ## Invariants, reset and runs (10_state.md, 20_memory.md, 70_reset_and_hazards.md) -/

/-- Every step keeps the invariants of R21 and R22 and the canonical form of the cells. -/
def Obligations.EveryStepKeepsTheInvariants : Prop :=
  ∀ s t : State, s.Inv → step s = .next t → t.Inv

/-- The reset state meets the invariants, whatever this instance's capacity. -/
def Obligations.ResetMeetsTheInvariants : Prop :=
  State.reset.Inv

/-- R270. What reset leaves, in the reset state and after a reset between two transactions: length 0, every cell UNSET,
the capacity unchanged. -/
def Obligations.ResetEmptiesTheBuffer : Prop :=
  State.reset.len = 0#16 ∧ (∀ i, State.reset.cells.read i = none) ∧
  ∀ s : State, ∃ t, step { s with inputs := .reset :: s.inputs } = .next t ∧
    t.len = 0#16 ∧ (∀ i, t.cells.read i = none) ∧ t.bbN = s.bbN

/-- R271. Reset and BB.CLEAR leave the same state, but for BB.CLEAR's response. -/
def Obligations.ResetIsClearWithoutResponse : Prop :=
  ∀ s : State, ∃ t, step { s with inputs := .reset :: s.inputs } = .next t ∧
    step (sent s [0x01#8]) = .next (answered t [0x00#8])

/-- A request in progress at reset: performed before the reset or not performed, the state after is the same, and it gets
no response. That the host keeps what it has yet to do and the responses it holds is the model's (log 4, 5). -/
def Obligations.ResetDropsTheRequestInProgress : Prop :=
  ∀ (s : State) (req : List Byte), ∃ u,
    step { s with inputs := .resetDuring req :: s.inputs } = .next u ∧
    u.responses = s.responses ∧ u.inputs = s.inputs ∧
    (∃ v, step { s with inputs := .reset :: s.inputs } = .next v ∧ sameBuffer v u) ∧
    ∀ t, step (sent s req) = .next t →
      ∃ v, step { t with inputs := .reset :: t.inputs } = .next v ∧ sameBuffer v u

/-- R23. No step changes the capacity; BB.CAP reads it; with capacity 0 every push fails. -/
def Obligations.CapacityIsConstant : Prop :=
  (∀ s t : State, step s = .next t → t.bbN = s.bbN) ∧
  (∀ s : State, exec .bbCap s = .next (answered s [0x00#8, hi s.bbN, lo s.bbN])) ∧
  ∀ (s : State) (b : Bit), s.bbN = 0#16 → exec (.bbPush b) s = .next (answered s [0x01#8])

/-- R29. The codec, record and framer commands neither read nor write the BitBuffer: each is answered, changes nothing
else, and gives any two states the same response. -/
def Obligations.CodecCommandsIgnoreTheBuffer : Prop :=
  ∀ i : Instr, outsideBitBuffer i = true →
    ∃ rsp, ∀ s : State, exec i s = .next (answered s rsp)

/-- R55. The response and the state writes are a function of the BitBuffer and the request alone: two states with the same
BitBuffer and capacity, whatever else they hold, give the same response and the same BitBuffer. -/
def Obligations.CommandsAreDeterministic : Prop :=
  ∀ (s s' t : State) (req : List Byte), sameBuffer s s' → step (sent s req) = .next t →
    ∃ t' rsp, step (sent s' req) = .next t' ∧ sameBuffer t t' ∧
      t.responses = s.responses ++ [rsp] ∧ t'.responses = s'.responses ++ [rsp]

/-- R109. A push that succeeds and then a pop return the bit and restore the buffer; a pop and then a push of the popped
bit restore the buffer. -/
def Obligations.PushAndPopAreInverse : Prop :=
  ∀ s : State, s.Inv →
    (∀ b, s.len.toNat < s.bbN.toNat →
      ∃ t u, exec (.bbPush b) s = .next t ∧ exec .bbPop t = .next u ∧ sameBuffer s u ∧
        u.responses = t.responses ++ [[0x00#8, bitByte b]]) ∧
    (s.len ≠ 0#16 →
      ∃ b t u, exec .bbPop s = .next t ∧ t.responses = s.responses ++ [[0x00#8, bitByte b]] ∧
        exec (.bbPush b) t = .next u ∧ sameBuffer s u)

/-- R108. The capacity boundary, for every capacity. -/
def Obligations.CapacityBoundary : Prop :=
  ∀ (s : State) (b : Bit),
    (s.len = s.bbN → ∃ t, exec (.bbPush b) s = .next t ∧ t.responses = s.responses ++ [[0x01#8]] ∧ t.len = s.len) ∧
    (s.len.toNat < s.bbN.toNat →
      ∃ t, exec (.bbPush b) s = .next t ∧ t.responses = s.responses ++ [[0x00#8]] ∧ t.len.toNat = s.len.toNat + 1)

/-- R110. After a load that succeeds, BB.GET (8j + k) returns bit 7 - k of byte j, and BB.LEN returns eight times the
number of bytes. -/
def Obligations.LoadedBytesReadBackMostSignificantFirst : Prop :=
  ∀ (s : State) (xs : List Byte), 8 * xs.length ≤ s.bbN.toNat →
    ∃ t, exec (.bbLoadb xs) s = .next t ∧
      (∀ j k, ∀ hj : j < xs.length, k < 8 →
        exec (.bbGet (BitVec.ofNat 16 (8 * j + k))) t =
          .next (answered t [0x00#8, bitByte (xs[j].getLsbD (7 - k))])) ∧
      exec .bbLen t = .next (answered t
        [0x00#8, hi (BitVec.ofNat 16 (8 * xs.length)), lo (BitVec.ofNat 16 (8 * xs.length))])

/-- From a state with the invariants, and with a host that waits for its responses, every step goes on: no fault, no
refusal. That a step with nothing to do goes on, and that only an early request is refused, are the model's (log 3, 6). -/
def Obligations.NoStepGetsStuck : Prop :=
  ∀ s : State, s.Inv → s.hostWaits → ∃ t, step s = .next t ∧ t.hostWaits

/-- A run of n requests from a state with the invariants takes n steps and gives n responses, in the order of the
requests, the k-th being the answer to the k-th request in the state the ones before it left. -/
def Obligations.RunsAnswerRequestsInOrder : Prop :=
  ∀ (reqs : List (List Byte)) (s : State), s.Inv → s.inputs = reqs.map HostEvent.request →
    ∃ t rsps, Host.Core.run Sys2Proof.core reqs.length s = .next t ∧ t.inputs = [] ∧ t.Inv ∧
      rsps.length = reqs.length ∧ t.responses = s.responses ++ rsps ∧
      ∀ k, ∀ hk : k < reqs.length, ∃ u v rsp, Host.Core.run Sys2Proof.core k s = .next u ∧
        step u = .next v ∧ Host.Core.run Sys2Proof.core (k + 1) s = .next v ∧
        rsps[k]? = some rsp ∧ u.responses = s.responses ++ rsps.take k ∧ v.responses = u.responses ++ [rsp] ∧
        u.inputs.head? = some (HostEvent.request reqs[k])

/-- The model refuses, by name, a request the host sends before the previous response (log 6). -/
def Obligations.EarlyRequestsAreRefused : Prop :=
  ∀ (s : State) (req : List Byte) (evs : List HostEvent), s.inputs = .earlyRequest req :: evs →
    step s = .refused .requestBeforeResponse

/-- The model's choice for a block with nothing to do (log 3): it waits, and nothing changes. -/
def Obligations.TheBlockWaitsForARequest : Prop :=
  ∀ s : State, s.inputs = [] → step s = .next s

/-! ## The code (41_codec.md) -/

/-- R146. Encode is linear, and the generator rows. -/
def Obligations.EncodeIsLinear : Prop :=
  (∀ a b : Data, encodeData (a ^^^ b) = encodeData a ^^^ encodeData b) ∧ encodeData 0#11 = 0x0000#16 ∧
  encodeData 0x400#11 = 0xF000#16 ∧ encodeData 0x200#11 = 0xCC00#16 ∧ encodeData 0x100#11 = 0xAA00#16 ∧
  encodeData 0x080#11 = 0x6900#16 ∧ encodeData 0x040#11 = 0xC0C0#16 ∧ encodeData 0x020#11 = 0xA0A0#16 ∧
  encodeData 0x010#11 = 0x6090#16 ∧ encodeData 0x008#11 = 0x8888#16 ∧ encodeData 0x004#11 = 0x4884#16 ∧
  encodeData 0x002#11 = 0x2882#16 ∧ encodeData 0x001#11 = 0xE881#16

/-- R143, R144. The sixteen positions of Encode(D): the four check bits as equations over D, the data bits in their
positions, position 0 the parity of the fifteen others. -/
def Obligations.CodewordPositions : Prop :=
  ∀ d : Data,
    let b := fun k => d.getLsbD k
    let c1 := b 10 ^^ b 9 ^^ b 7 ^^ b 6 ^^ b 4 ^^ b 2 ^^ b 0
    let c2 := b 10 ^^ b 8 ^^ b 7 ^^ b 5 ^^ b 4 ^^ b 1 ^^ b 0
    let c4 := b 9 ^^ b 8 ^^ b 7 ^^ b 3 ^^ b 2 ^^ b 1 ^^ b 0
    let c8 := b 6 ^^ b 5 ^^ b 4 ^^ b 3 ^^ b 2 ^^ b 1 ^^ b 0
    let p0 := c1 ^^ c2 ^^ b 10 ^^ c4 ^^ b 9 ^^ b 8 ^^ b 7 ^^ c8 ^^ b 6 ^^ b 5 ^^ b 4 ^^ b 3 ^^ b 2 ^^ b 1 ^^ b 0
    fieldBits (encodeData d) =
      [p0, c1, c2, b 10, c4, b 9, b 8, b 7, c8, b 6, b 5, b 4, b 3, b 2, b 1, b 0]

/-- Every codeword passes all parity checks: syndrome 0, even overall parity. -/
def Obligations.EncodePassesAllChecks : Prop :=
  ∀ d : Data, syndrome (fieldBits (encodeData d)) = 0#4 ∧ overallParity (fieldBits (encodeData d)) = false ∧
    receivedData (encodeData d) = d

/-- R147, R148. Bit j of the syndrome is the parity of the positions 1 to 15 whose index has bit j set; q is the parity of
all sixteen. -/
def Obligations.SyndromeAndOverallParity : Prop :=
  ∀ w : Word16,
    (∀ j, j < 4 → (syndrome (fieldBits w)).getLsbD j =
      ((List.range' 1 15).filter fun i => i.testBit j).foldl (fun acc i => acc ^^ w.getMsbD i) false) ∧
    overallParity (fieldBits w) = (List.range 16).foldl (fun acc i => acc ^^ w.getMsbD i) false

/-- R149. The four cases of syndrome and overall parity: the DecodeStatus of each, and the data after its correction. -/
def Obligations.DecodeClassification : Prop :=
  ∀ w : Word16,
    let s := syndrome (fieldBits w)
    let q := overallParity (fieldBits w)
    (s = 0#4 → q = false → decodeWord w = (receivedData w, .clean)) ∧
    (s ≠ 0#4 → q = true →
      decodeWord w = (receivedData (w ^^^ positionMask s.toNat), .correctedSingleBit s)) ∧
    (s = 0#4 → q = true → decodeWord w = (receivedData w, .correctedSingleBit 0#4)) ∧
    (s ≠ 0#4 → q = false → (decodeWord w).2 = .uncorrectableMultiBit)

/-- The data returned with UncorrectableMultiBit are the data bits as received: the value 41_codec.md R150 chooses, which
93_implementation_defined.md row 1 lets a model leave free (log 11). -/
def Obligations.UncorrectableDataIsAsReceived : Prop :=
  ∀ w : Word16, (decodeWord w).2 = .uncorrectableMultiBit → (decodeWord w).1 = receivedData w

/-- R154. Every single flip of a codeword is corrected and located, every double flip is detected. -/
def Obligations.SingleErrorsCorrectedDoubleErrorsDetected : Prop :=
  ∀ d : Data,
    (∀ p, p < 16 → decodeWord (encodeData d ^^^ positionMask p) = (d, .correctedSingleBit (BitVec.ofNat 4 p))) ∧
    (∀ p p', p < 16 → p' < 16 → p ≠ p' →
      (decodeWord (encodeData d ^^^ positionMask p ^^^ positionMask p')).2 = .uncorrectableMultiBit)

/-- Three errors or more: an odd weight is always mis-corrected, with wrong data; an even weight is always detected,
unless the error is itself a codeword, and then the word decodes as clean with wrong data. -/
def Obligations.ResidualRiskOfManyErrors : Prop :=
  ∀ (d : Data) (e : Word16),
    (weight e % 2 = 1 → 3 ≤ weight e →
      ∃ d' p, decodeWord (encodeData d ^^^ e) = (d', .correctedSingleBit p) ∧ d' ≠ d) ∧
    (weight e % 2 = 0 → 4 ≤ weight e → (∀ d', e ≠ encodeData d') →
      (decodeWord (encodeData d ^^^ e)).2 = .uncorrectableMultiBit) ∧
    (weight e % 2 = 0 → 4 ≤ weight e → ∀ d', e = encodeData d' →
      decodeWord (encodeData d ^^^ e) = (d ^^^ d', .clean) ∧ d ^^^ d' ≠ d)

/-- Two codewords of different data differ in at least four positions. -/
def Obligations.MinimumDistanceFour : Prop :=
  ∀ a b : Data, a ≠ b → 4 ≤ weight (encodeData a ^^^ encodeData b)

/-! ## The record (42_record.md) -/

/-- R180. The canonical layout: the fields in order, each in its bytes, most significant bit first, 488 bits in all. -/
def Obligations.RecordLayout : Prop :=
  ∀ r : TelemetryRecord,
    recordImage r = fieldBytes r ∧ serializeRecord r = bytesBits (fieldBytes r) ∧ (serializeRecord r).length = 488

/-- R192. Serialize and Deserialize are inverse. -/
def Obligations.RecordRoundTrip : Prop :=
  (∀ r : TelemetryRecord, deserializeBits (serializeRecord r) = some r) ∧
  ∀ bs : List Bit, bs.length = 488 → validStatus (bitsField 8 (bs.drop 480)) →
    ∃ r, deserializeBits bs = some r ∧ serializeRecord r = bs

/-- Deserialize fails exactly when the status byte is not valid, whatever every other bit is. -/
def Obligations.OnlyTheStatusByteIsChecked : Prop :=
  ∀ bs : List Bit, bs.length = 488 →
    (deserializeBits bs = none ↔ ¬ validStatus (bitsField 8 (bs.drop 480)))

/-! ## The Message (43_framer.md) -/

/-- R215. The Message of an image: block j is the codeword of bits 11j to 11j + 10 of the image's bits padded with seven
zeros, in two bytes, big-endian, in order. -/
def Obligations.FrameEncodesTheGroupsInOrder : Prop :=
  ∀ (img : List Byte) (r : TelemetryRecord), img.length = 61 → recordOfImage img = some r →
    frameRecord r = (List.range 45).flatMap fun j =>
      let w := encodeData (bitsField 11 (((bytesBits img ++ List.replicate 7 false).drop (11 * j)).take 11))
      [hi w, lo w]

/-- R214. The last group: its high four bits are the low four bits of the status byte, its low seven bits the padding. -/
def Obligations.PaddingIsTheLowBitsOfTheLastGroup : Prop :=
  ∀ r : TelemetryRecord,
    groupData (padStream (serializeRecord r)) 44 = r.status.code.extractLsb' 0 4 ++ 0#7

/-- R218. The padding bits of a received Message are dropped: two last blocks whose data agree in the four record bits
unframe alike. -/
def Obligations.PaddingIsIgnoredOnUnframe : Prop :=
  ∀ (ws : List Word16) (d d' : Data), ws.length = 44 → d.extractLsb' 7 4 = d'.extractLsb' 7 4 →
    unframeMessage (packWords (ws ++ [encodeData d])) = unframeMessage (packWords (ws ++ [encodeData d']))

/-- R223. Framing a record and unframing its Message gives the record image back, with no block corrected. -/
def Obligations.UnframeOfFrameIsTheRecord : Prop :=
  ∀ (s : State) (img : List Byte), ∀ h : img.length = 61, validStatus img[60] →
    ∃ msg, exec (.frame img) s = .next (answered s (0x00#8 :: msg)) ∧ msg.length = 90 ∧
      exec (.unframe msg) s = .next (answered s (0x00#8 :: (img ++ [0x00#8])))

/-- R224. At most one flipped bit in each block, in any number of blocks: the record image comes back, and any_corrected
says whether any bit was flipped. -/
def Obligations.OneFlipPerBlockIsTolerated : Prop :=
  ∀ (s : State) (r : TelemetryRecord) (es : List Word16), es.length = 45 →
    (∀ e ∈ es, e = 0#16 ∨ ∃ p, p < 16 ∧ e = positionMask p) →
    exec (.unframe (packWords (List.zipWith (· ^^^ ·) (messageWords r) es))) s =
      .next (answered s (0x00#8 :: (recordImage r ++ [bitByte (es.any fun e => e != 0#16)])))

/-! ## The assembler (30_encoding.md R74) -/

/-- R74. The pseudo-instructions expand to the requests of their commands, and a load of no bytes, which is another
request, leaves the state and gives the response of BB.CLEAR. -/
def Obligations.PseudoInstructionsExpand : Prop :=
  assemble .bbNew = assemble .bbClear ∧
  (∀ bs : List Bit, assemble (.bbPushbits bs) = bs.flatMap fun b => assemble (.bbPush (bitByte b))) ∧
  assemble (.bbLoadb []) ≠ assemble .bbClear ∧
  (∀ s : State, exec (.bbLoadb []) s = exec .bbClear s)
end

