-- ==== Sys2Proof/Laws/Cells.lean ====
section
/-! SUPPORT. The BitBuffer cells: what a read gives after each cell operation, and that each keeps the canonical form. -/

namespace Sys2Proof.Machine

/-! ## Reads -/

@[simp] theorem Cells.read_nil (i : Nat) : Cells.read [] i = none := rfl

@[simp] theorem Cells.read_allUnset (i : Nat) : Cells.allUnset.read i = none := rfl

theorem Cells.read_cons (j : Nat) (b : Bit) (t : Cells) (i : Nat) :
    Cells.read ((j, b) :: t) i = if i = j then some b else Cells.read t i := rfl

/-- A write to cell i is read back at i and seen at no other index. -/
theorem Cells.read_write (m : Cells) (i : Nat) (b : Bit) (k : Nat) :
    (m.write i b).read k = if k = i then some b else m.read k := by
  induction m with
  | nil => rfl
  | cons c t ih =>
    obtain ⟨j, c⟩ := c
    by_cases hlt : i < j
    · simp [Cells.write, hlt, Cells.read_cons]
    · by_cases hij : i = j
      · subst hij
        by_cases hk : k = i <;> simp [Cells.write, Cells.read_cons, hk]
      · by_cases hk : k = j
        · simp [Cells.write, hlt, hij, Cells.read_cons, hk, Ne.symm hij]
        · simp [Cells.write, hlt, hij, Cells.read_cons, hk, ih]

/-- Unsetting cell i leaves UNSET at i and every other cell as it was. -/
theorem Cells.read_unset (m : Cells) (i k : Nat) :
    (m.unset i).read k = if k = i then none else m.read k := by
  induction m with
  | nil => simp [Cells.unset]
  | cons c t ih =>
    obtain ⟨j, c⟩ := c
    unfold Cells.unset at ih ⊢
    by_cases hji : j = i
    · subst hji
      by_cases hk : k = j <;> simp_all [Cells.read_cons]
    · by_cases hk : k = j
      · simp [hji, Cells.read_cons, hk]
      · simp [hji, Cells.read_cons, hk, ih]

/-- The cells of a sequence whose numbering begins at n. -/
theorem Cells.read_zipIdx (bs : List Bit) (n k : Nat) :
    Cells.read ((bs.zipIdx n).map fun c => (c.2, c.1)) (n + k) = bs[k]? := by
  induction bs generalizing n k with
  | nil => simp
  | cons b t ih =>
    cases k with
    | zero => simp [Cells.read_cons]
    | succ k =>
      have h := ih (n + 1) k
      rw [show n + (k + 1) = n + 1 + k by omega]
      simp only [List.zipIdx_cons, List.map_cons, Cells.read_cons]
      rw [if_neg (by omega)]
      simpa using h

/-- Cell i of a loaded sequence is bit i, UNSET after the end. -/
@[simp] theorem Cells.read_ofBits (bs : List Bit) (i : Nat) : (Cells.ofBits bs).read i = bs[i]? := by
  simpa [Cells.ofBits] using Cells.read_zipIdx bs 0 i

/-! ## The canonical form -/

/-- Nothing is listed below the first index of a canonical store. -/
theorem Cells.read_eq_none_of_lt {m : Cells} {i : Nat} (h : ∀ c ∈ m, i < c.1) : m.read i = none := by
  induction m with
  | nil => rfl
  | cons c t ih =>
    obtain ⟨j, c⟩ := c
    have hj : i < j := h (j, c) (by simp)
    rw [Cells.read_cons, if_neg (by omega)]
    exact ih fun d hd => h d (by simp [hd])

/-- The indices a write lists: the old ones and its own. -/
theorem Cells.mem_write {m : Cells} {i : Nat} {b : Bit} {c : Nat × Bit} (h : c ∈ m.write i b) :
    c = (i, b) ∨ c ∈ m := by
  induction m with
  | nil => simpa [Cells.write] using h
  | cons d t ih =>
    obtain ⟨j, d⟩ := d
    simp only [Cells.write] at h
    split at h
    · simpa using h
    · split at h
      · rcases List.mem_cons.1 h with h | h
        · exact .inl h
        · exact .inr (by simp [h])
      · rcases List.mem_cons.1 h with h | h
        · exact .inr (by simp [h])
        · rcases ih h with h | h
          · exact .inl h
          · exact .inr (by simp [h])

@[simp] theorem Cells.allUnset_wf : Cells.allUnset.wf := List.Pairwise.nil

/-- A write keeps the canonical form. -/
theorem Cells.write_wf {m : Cells} (h : m.wf) (i : Nat) (b : Bit) : (m.write i b).wf := by
  induction m with
  | nil => simp [Cells.write, Cells.wf]
  | cons c t ih =>
    obtain ⟨j, c⟩ := c
    simp only [Cells.wf, List.map_cons, List.pairwise_cons] at h
    obtain ⟨hj, ht⟩ := h
    simp only [Cells.write]
    split
    · rename_i hlt
      simp only [Cells.wf, List.map_cons, List.pairwise_cons]
      refine ⟨?_, hj, ht⟩
      intro k hk
      rcases List.mem_cons.1 hk with rfl | hk
      · exact hlt
      · exact Nat.lt_trans hlt (hj k hk)
    · split
      · rename_i _ hij
        subst hij
        simp only [Cells.wf, List.map_cons, List.pairwise_cons]
        exact ⟨hj, ht⟩
      · rename_i hlt hij
        simp only [Cells.wf, List.map_cons, List.pairwise_cons]
        refine ⟨?_, ih ht⟩
        intro k hk
        obtain ⟨d, hd, rfl⟩ := List.mem_map.1 hk
        rcases Cells.mem_write hd with rfl | hd
        · simp only; omega
        · exact hj _ (List.mem_map_of_mem hd)

/-- Unsetting a cell keeps the canonical form. -/
theorem Cells.unset_wf {m : Cells} (h : m.wf) (i : Nat) : (m.unset i).wf :=
  List.Pairwise.sublist (List.Sublist.map _ List.filter_sublist) h

/-- The indices of a loaded sequence are 0, 1, 2, ... -/
theorem Cells.map_fst_ofBits (bs : List Bit) : (Cells.ofBits bs).map Prod.fst = List.range bs.length := by
  rw [Cells.ofBits, List.map_map, List.range_eq_range', ← List.zipIdx_map_snd 0 bs]
  rfl

/-- Loading a sequence gives the canonical form. -/
theorem Cells.ofBits_wf (bs : List Bit) : (Cells.ofBits bs).wf := by
  rw [Cells.wf, Cells.map_fst_ofBits]
  exact List.pairwise_lt_range

/-- The reset state's cells are in the canonical form. -/
theorem State.reset_cells_wf : State.reset.cells.wf := List.Pairwise.nil

/-- Two canonical stores that read the same are the same. -/
theorem Cells.eq_of_read {m n : Cells} (hm : m.wf) (hn : n.wf) (h : ∀ i, m.read i = n.read i) : m = n := by
  induction m generalizing n with
  | nil =>
    cases n with
    | nil => rfl
    | cons c t =>
      obtain ⟨j, b⟩ := c
      have := h j
      simp [Cells.read_cons] at this
  | cons c t ih =>
    obtain ⟨j, b⟩ := c
    cases n with
    | nil =>
      have := h j
      simp [Cells.read_cons] at this
    | cons d u =>
      obtain ⟨k, e⟩ := d
      simp only [Cells.wf, List.map_cons, List.pairwise_cons, List.mem_map, forall_exists_index, and_imp] at hm hn
      have hjk : j = k := by
        rcases Nat.lt_trichotomy j k with hlt | heq | hlt
        · have := h j
          rw [Cells.read_cons, if_pos rfl, Cells.read_cons, if_neg (by omega),
            Cells.read_eq_none_of_lt fun c hc => Nat.lt_trans hlt (hn.1 _ c hc rfl)] at this
          simp at this
        · exact heq
        · have := h k
          rw [Cells.read_cons, Cells.read_cons, if_neg (by omega), if_pos rfl,
            Cells.read_eq_none_of_lt fun c hc => Nat.lt_trans hlt (hm.1 _ c hc rfl)] at this
          simp at this
      subst hjk
      have hbe := h j
      simp only [Cells.read_cons, if_true, Option.some.injEq] at hbe
      subst hbe
      congr 1
      apply ih hm.2 hn.2
      intro i
      have hi := h i
      by_cases hij : i = j
      · subst hij
        rw [Cells.read_eq_none_of_lt fun c hc => hm.1 _ c hc rfl,
          Cells.read_eq_none_of_lt fun c hc => hn.1 _ c hc rfl]
      · simpa [Cells.read_cons, hij] using hi

end Sys2Proof.Machine
end

