-- ==== Sys2Proof/Laws/Operands.lean ====
section
/-! SUPPORT. Bit sequences, bytes and fields: the conversions of 20_memory.md R42 to R45 are mutual inverses. -/

namespace Sys2Proof.Machine

/-! ## A value and its bits -/

@[simp] theorem fieldBits_length {w : Nat} (v : BitVec w) : (fieldBits v).length = w := by
  simp [fieldBits]

/-- Element i of a value's bits is its bit of weight w - 1 - i. -/
theorem fieldBits_getElem? {w : Nat} (v : BitVec w) (i : Nat) :
    (fieldBits v)[i]? = if i < w then some (v.getMsbD i) else none := by
  simp only [fieldBits, List.getElem?_map]
  by_cases h : i < w <;> simp [h]

theorem fieldBits_getElem {w : Nat} (v : BitVec w) (i : Nat) (h : i < (fieldBits v).length) :
    (fieldBits v)[i] = v.getMsbD i := by
  simp [fieldBits]

@[simp] theorem bitsNat_nil : bitsNat [] = 0 := rfl

theorem bitsNat_append_singleton (bs : List Bit) (b : Bit) :
    bitsNat (bs ++ [b]) = 2 * bitsNat bs + b.toNat := by
  simp [bitsNat]

/-- A sequence of n bits spells a number below 2^n. -/
theorem bitsNat_lt (bs : List Bit) : bitsNat bs < 2 ^ bs.length := by
  induction bs using List.reverseRecOn with
  | nil => simp
  | append_singleton bs b ih =>
    rw [bitsNat_append_singleton, List.length_append, List.length_singleton, Nat.pow_succ]
    have := Bool.toNat_le b
    omega

/-- Bit j of the number a sequence spells is its element j from the end. -/
theorem bitsNat_testBit (bs : List Bit) (j : Nat) :
    (bitsNat bs).testBit j = (decide (j < bs.length) && bs.getD (bs.length - 1 - j) false) := by
  induction bs using List.reverseRecOn generalizing j with
  | nil => simp
  | append_singleton bs b ih =>
    rw [bitsNat_append_singleton]
    cases j with
    | zero =>
      rw [Nat.testBit_zero]
      cases b <;> simp [Nat.add_mod]
    | succ j =>
      rw [Nat.testBit_add_one, show (2 * bitsNat bs + b.toNat) / 2 = bitsNat bs by
        have := Bool.toNat_le b; omega, ih]
      by_cases hj : j < bs.length
      · simp [hj, show bs.length - (j + 1) < bs.length by omega,
          show bs.length - 1 - j = bs.length - (j + 1) by omega]
      · simp [hj]

/-- A value is what its bits spell. -/
@[simp] theorem bitsField_fieldBits {w : Nat} (v : BitVec w) : bitsField w (fieldBits v) = v := by
  apply BitVec.eq_of_getLsbD_eq
  intro i hi
  simp only [bitsField, BitVec.getLsbD_ofNat, bitsNat_testBit, fieldBits_length, hi, decide_true, Bool.true_and]
  rw [List.getD_eq_getElem?_getD, fieldBits_getElem?, if_pos (by omega)]
  simp only [Option.getD_some, BitVec.getMsbD, show w - 1 - i < w by omega, decide_true, Bool.true_and]
  congr 1
  omega

/-- A sequence of w bits is the bits of the value it spells. -/
theorem fieldBits_bitsField {w : Nat} {bs : List Bit} (h : bs.length = w) : fieldBits (bitsField w bs) = bs := by
  subst h
  apply List.ext_getElem
  · simp
  · intro i h1 h2
    rw [fieldBits_getElem]
    simp only [bitsField, BitVec.getMsbD, BitVec.getLsbD_ofNat, bitsNat_testBit, h2, decide_true, Bool.true_and]
    rw [show bs.length - 1 - i < bs.length by omega |> decide_eq_true, Bool.true_and, Bool.true_and,
      show bs.length - 1 - (bs.length - 1 - i) = i by omega]
    simp [h2]

/-- Two values with the same bits are the same. -/
theorem fieldBits_injective {w : Nat} {u v : BitVec w} (h : fieldBits u = fieldBits v) : u = v := by
  rw [← bitsField_fieldBits u, h, bitsField_fieldBits]

/-! ## Bytes and bits -/

@[simp] theorem bytesBits_nil : bytesBits [] = [] := rfl

@[simp] theorem bytesBits_cons (x : Byte) (xs : List Byte) : bytesBits (x :: xs) = fieldBits x ++ bytesBits xs := rfl

@[simp] theorem bytesBits_append (xs ys : List Byte) : bytesBits (xs ++ ys) = bytesBits xs ++ bytesBits ys := by
  simp [bytesBits]

@[simp] theorem bytesBits_length (xs : List Byte) : (bytesBits xs).length = 8 * xs.length := by
  induction xs with
  | nil => rfl
  | cons x xs ih => simp [ih]; omega

@[simp] theorem bitsBytes_length (n : Nat) (bs : List Bit) : (bitsBytes n bs).length = n := by
  simp [bitsBytes]

/-- The byte string of a byte and the rest of a sequence. -/
theorem bitsBytes_succ (n : Nat) (bs : List Bit) :
    bitsBytes (n + 1) bs = bitsField 8 (bs.take 8) :: bitsBytes n (bs.drop 8) := by
  simp only [bitsBytes, List.range_succ_eq_map, List.map_cons, List.map_map]
  congr 1
  apply List.map_congr_left
  intro j _
  simp only [Function.comp, sliceBits, List.drop_drop]
  congr 3
  omega

/-- Bytes are what their bits pack to. -/
@[simp] theorem bitsBytes_bytesBits (xs : List Byte) : bitsBytes xs.length (bytesBits xs) = xs := by
  induction xs with
  | nil => rfl
  | cons x xs ih =>
    rw [List.length_cons, bitsBytes_succ, bytesBits_cons, List.take_left' (fieldBits_length x),
      List.drop_left' (fieldBits_length x), bitsField_fieldBits, ih]

/-- A sequence of 8n bits is the bits of the bytes it packs to. -/
theorem bytesBits_bitsBytes {n : Nat} {bs : List Bit} (h : bs.length = 8 * n) : bytesBits (bitsBytes n bs) = bs := by
  induction n generalizing bs with
  | zero => rw [List.eq_nil_of_length_eq_zero (by omega : bs.length = 0)]; rfl
  | succ n ih =>
    rw [bitsBytes_succ, bytesBits_cons, fieldBits_bitsField (by simp; omega), ih (by simp; omega), List.take_append_drop]

/-- Element 8j + t of a byte string's bits is bit 7 - t of byte j. -/
theorem bytesBits_getElem? (xs : List Byte) (j t : Nat) (ht : t < 8) :
    (bytesBits xs)[8 * j + t]? = xs[j]?.map fun x => x.getLsbD (7 - t) := by
  induction xs generalizing j with
  | nil => simp
  | cons x xs ih =>
    cases j with
    | zero =>
      rw [bytesBits_cons, List.getElem?_append_left (by simp; omega), fieldBits_getElem?, if_pos (by omega)]
      simp only [BitVec.getMsbD, show 8 * 0 + t < 8 by omega, decide_true, Bool.true_and, List.getElem?_cons_zero,
        Option.map_some]
      congr 2
      omega
    | succ j =>
      rw [bytesBits_cons, List.getElem?_append_right (by simp; omega), fieldBits_length,
        show 8 * (j + 1) + t - 8 = 8 * j + t by omega, ih]
      simp

/-! ## Multi-byte fields -/

@[simp] theorem bytes16_length (v : Word16) : (bytes16 v).length = 2 := rfl

@[simp] theorem bytes32_length (v : BitVec 32) : (bytes32 v).length = 4 := rfl

/-- The bits of a concatenation of two bytes. -/
theorem getLsbD_append16 (a b : Byte) (i : Nat) :
    (a ++ b : Word16).getLsbD i = if i < 8 then b.getLsbD i else a.getLsbD (i - 8) := by
  have h := BitVec.getLsbD_append (x := a) (y := b) (i := i)
  simpa using h

/-- A 16-bit value is the concatenation of its bytes. -/
@[simp] theorem append_bytes16 (v : Word16) : (v.extractLsb' 8 8 ++ v.extractLsb' 0 8 : Word16) = v := by
  apply BitVec.eq_of_getLsbD_eq
  intro i hi
  rw [getLsbD_append16]
  simp only [BitVec.getLsbD_extractLsb']
  split
  · simp_all
  · simp [show i - 8 < 8 by omega, show 8 + (i - 8) = i by omega]

/-- The bytes of a concatenation of two bytes. -/
@[simp] theorem bytes16_append (a b : Byte) : bytes16 (a ++ b : Word16) = [a, b] := by
  simp only [bytes16, List.cons.injEq, and_true]
  constructor <;>
  · apply BitVec.eq_of_getLsbD_eq
    intro i hi
    rw [BitVec.getLsbD_extractLsb', getLsbD_append16]
    simp [hi]

/-- The first byte of a 16-bit field is its high byte, the second its low byte (20_memory.md R45). -/
theorem word16At_bytes16 (v : Word16) (xs : List Byte) : word16At (bytes16 v ++ xs) 0 = v :=
  append_bytes16 v

/-- The bits of a 16-bit value are the bits of its two bytes (20_memory.md R45). -/
theorem bytesBits_bytes16 (v : Word16) : bytesBits (bytes16 v) = fieldBits v := by
  have h : ∀ j t, j < 2 → t < 8 → (bytesBits (bytes16 v))[8 * j + t]? = some (v.getMsbD (8 * j + t)) := by
    intro j t hj ht
    rw [bytesBits_getElem? _ _ _ ht]
    have h7 : 7 - t < 8 := by omega
    interval_cases j <;>
      simp only [bytes16, List.getElem?_cons_zero, List.getElem?_cons_succ, Option.map_some, BitVec.getLsbD_extractLsb',
        BitVec.getMsbD, h7, decide_true, Bool.true_and, Option.some.injEq]
    · rw [decide_eq_true (by omega), Bool.true_and]; congr 1; omega
    · rw [decide_eq_true (by omega), Bool.true_and]; congr 1; omega
  apply List.ext_getElem?
  intro i
  by_cases hi : i < 16
  · rw [show i = 8 * (i / 8) + i % 8 by omega, h _ _ (by omega) (by omega), fieldBits_getElem?, if_pos (by omega)]
  · rw [fieldBits_getElem?, if_neg hi, List.getElem?_eq_none (by simp; omega)]

/-- The bits of a 32-bit value are the bits of its four bytes. -/
theorem bytesBits_bytes32 (v : BitVec 32) : bytesBits (bytes32 v) = fieldBits v := by
  have h : ∀ j t, j < 4 → t < 8 → (bytesBits (bytes32 v))[8 * j + t]? = some (v.getMsbD (8 * j + t)) := by
    intro j t hj ht
    rw [bytesBits_getElem? _ _ _ ht]
    have h7 : 7 - t < 8 := by omega
    interval_cases j <;>
      simp only [bytes32, List.getElem?_cons_zero, List.getElem?_cons_succ, Option.map_some, BitVec.getLsbD_extractLsb',
        BitVec.getMsbD, h7, decide_true, Bool.true_and, Option.some.injEq]
    · rw [decide_eq_true (by omega), Bool.true_and]; congr 1; omega
    · rw [decide_eq_true (by omega), Bool.true_and]; congr 1; omega
    · rw [decide_eq_true (by omega), Bool.true_and]; congr 1; omega
    · rw [decide_eq_true (by omega), Bool.true_and]; congr 1; omega
  apply List.ext_getElem?
  intro i
  by_cases hi : i < 32
  · rw [show i = 8 * (i / 8) + i % 8 by omega, h _ _ (by omega) (by omega), fieldBits_getElem?, if_pos (by omega)]
  · rw [fieldBits_getElem?, if_neg hi, List.getElem?_eq_none (by simp; omega)]

/-- The bits of a concatenation of four bytes. -/
theorem getLsbD_append32 (a b c d : Byte) (i : Nat) :
    (a ++ b ++ c ++ d : BitVec 32).getLsbD i =
      if i < 8 then d.getLsbD i else if i < 16 then c.getLsbD (i - 8)
      else if i < 24 then b.getLsbD (i - 16) else a.getLsbD (i - 24) := by
  have h1 := BitVec.getLsbD_append (x := a ++ b ++ c) (y := d) (i := i)
  have h2 := BitVec.getLsbD_append (x := a ++ b) (y := c) (i := i - 8)
  have h3 := BitVec.getLsbD_append (x := a) (y := b) (i := i - 8 - 8)
  rw [h2, h3] at h1
  by_cases c1 : i < 8
  · simpa [c1] using h1
  · by_cases c2 : i < 16
    · simpa [c1, c2, show i - 8 < 8 by omega] using h1
    · by_cases c3 : i < 24
      · simpa [c1, c2, c3, show ¬ i - 8 < 8 by omega, show i - 16 < 8 by omega,
          show i - 8 - 8 = i - 16 by omega] using h1
      · simpa [c1, c2, c3, show ¬ i - 8 < 8 by omega, show ¬ i - 16 < 8 by omega,
          show i - 8 - 8 = i - 16 by omega, show i - 16 - 8 = i - 24 by omega] using h1

/-- The bytes of a concatenation of four bytes. -/
@[simp] theorem bytes32_append (a b c d : Byte) : bytes32 (a ++ b ++ c ++ d : BitVec 32) = [a, b, c, d] := by
  simp only [bytes32, List.cons.injEq, and_true]
  refine ⟨?_, ?_, ?_, ?_⟩ <;>
  · apply BitVec.eq_of_getLsbD_eq
    intro i hi
    rw [BitVec.getLsbD_extractLsb', getLsbD_append32]
    simp [hi, show ¬ 24 + i < 8 by omega, show ¬ 24 + i < 16 by omega, show ¬ 16 + i < 8 by omega,
      show ¬ 16 + i < 16 by omega, show 16 + i < 24 by omega, show 8 + i < 16 by omega, show ¬ 8 + i < 8 by omega]

/-- A 32-bit value is the concatenation of its bytes. -/
@[simp] theorem append_bytes32 (v : BitVec 32) :
    (v.extractLsb' 24 8 ++ v.extractLsb' 16 8 ++ v.extractLsb' 8 8 ++ v.extractLsb' 0 8 : BitVec 32) = v := by
  apply BitVec.eq_of_getLsbD_eq
  intro i hi
  rw [getLsbD_append32]
  simp only [BitVec.getLsbD_extractLsb']
  split
  · simp_all
  · split
    · simp [show i - 8 < 8 by omega, show 8 + (i - 8) = i by omega]
    · split
      · simp [show i - 16 < 8 by omega, show 16 + (i - 16) = i by omega]
      · simp [show i - 24 < 8 by omega, show 24 + (i - 24) = i by omega]

/-! ## Bytes of a longer string -/

/-- A byte past a prefix. -/
theorem byteAt_append_right (xs ys : List Byte) (k : Nat) : byteAt (xs ++ ys) (xs.length + k) = byteAt ys k := by
  rw [byteAt, byteAt, List.getD_append_right _ _ _ _ (by omega), Nat.add_sub_cancel_left]

/-- A 16-bit field past a prefix. -/
theorem word16At_append_right (xs ys : List Byte) (k : Nat) : word16At (xs ++ ys) (xs.length + k) = word16At ys k := by
  simp only [word16At, Nat.add_assoc, byteAt_append_right]

/-- A 32-bit field past a prefix. -/
theorem word32At_append_right (xs ys : List Byte) (k : Nat) : word32At (xs ++ ys) (xs.length + k) = word32At ys k := by
  simp only [word32At, Nat.add_assoc, byteAt_append_right]

/-- A 32-bit field at the front of a string. -/
theorem word32At_bytes32 (v : BitVec 32) (xs : List Byte) : word32At (bytes32 v ++ xs) 0 = v :=
  append_bytes32 v

/-! ## Bits and flags as bytes -/

/-- A flag byte is 0x01 for true and 0x00 for false. -/
theorem flagByte_eq (b : Bool) : flagByte b = if b then 0x01#8 else 0x00#8 := by
  cases b <;> decide

end Sys2Proof.Machine
end

