-- ==== Sys2Proof/Laws/Codec.lean ====
section
/-! SUPPORT. The codeword codec: a codeword as its sixteen positions, and the linearity of its checks. -/

namespace Sys2Proof.Machine

/-! ## Codewords as positions -/

/-- The eleven data bits of a data value, data bit 0 first. -/
theorem fieldBits_data (d : Data) :
    fieldBits d = [d.getMsbD 0, d.getMsbD 1, d.getMsbD 2, d.getMsbD 3, d.getMsbD 4, d.getMsbD 5, d.getMsbD 6,
      d.getMsbD 7, d.getMsbD 8, d.getMsbD 9, d.getMsbD 10] := rfl

/-- The sixteen positions of a word, position 0 first. -/
theorem fieldBits_word (w : Word16) :
    fieldBits w = [w.getMsbD 0, w.getMsbD 1, w.getMsbD 2, w.getMsbD 3, w.getMsbD 4, w.getMsbD 5, w.getMsbD 6,
      w.getMsbD 7, w.getMsbD 8, w.getMsbD 9, w.getMsbD 10, w.getMsbD 11, w.getMsbD 12, w.getMsbD 13, w.getMsbD 14,
      w.getMsbD 15] := rfl

/-- Position p of a word is its bit 15 - p (41_codec.md R140). -/
theorem posBit_fieldBits (w : Word16) (p : Nat) : posBit (fieldBits w) p = w.getMsbD p := by
  rw [posBit, List.getD_eq_getElem?_getD, fieldBits_getElem?]
  by_cases h : p < 16 <;> simp [h, BitVec.getMsbD]

/-- Setting positions one after another keeps their number. -/
theorem foldl_set_length {α β : Type} (f : List α → β → Nat) (g : List α → β → α) (l : List β) (c : List α) :
    (l.foldl (fun c x => c.set (f c x) (g c x)) c).length = c.length := by
  induction l generalizing c with
  | nil => rfl
  | cons x l ih => rw [List.foldl_cons, ih, List.length_set]

@[simp] theorem placeData_length (d : Data) : (placeData d).length = 16 := by
  rw [placeData, foldl_set_length, List.length_replicate]

@[simp] theorem setChecks_length (c : List Bit) : (setChecks c).length = c.length := by
  rw [setChecks, foldl_set_length]

@[simp] theorem setParity_length (c : List Bit) : (setParity c).length = c.length := by
  rw [setParity, List.length_set]

/-- The positions of an encoded word are those the encoder set. -/
theorem fieldBits_encodeData (d : Data) : fieldBits (encodeData d) = setParity (setChecks (placeData d)) :=
  fieldBits_bitsField (by simp)

/-! ## Linearity -/

/-- A parity of the positions of a sum is the sum of the parities. -/
theorem xorOver_xor (v w : Word16) (ps : List Nat) (h : ∀ p ∈ ps, p < 16) :
    xorOver (fieldBits (v ^^^ w)) ps = (xorOver (fieldBits v) ps ^^ xorOver (fieldBits w) ps) := by
  have key : ∀ (ps : List Nat) (a b : Bool), (∀ p ∈ ps, p < 16) →
      ps.foldl (fun acc i => acc ^^ posBit (fieldBits (v ^^^ w)) i) (a ^^ b) =
        (ps.foldl (fun acc i => acc ^^ posBit (fieldBits v) i) a ^^
          ps.foldl (fun acc i => acc ^^ posBit (fieldBits w) i) b) := by
    intro ps
    induction ps with
    | nil => intros; rfl
    | cons p ps ih =>
      intro a b hp
      have h16 : p < 16 := hp p (by simp)
      simp only [List.foldl_cons]
      rw [← ih _ _ fun q hq => hp q (by simp [hq])]
      congr 1
      simp only [posBit_fieldBits, BitVec.getMsbD, BitVec.getLsbD_xor, h16, decide_true, Bool.true_and]
      cases a <;> cases b <;> cases v.getLsbD (16 - 1 - p) <;> cases w.getLsbD (16 - 1 - p) <;> rfl
  exact key ps false false h

/-- The overall parity of a sum is the sum of the overall parities. -/
theorem overallParity_xor (v w : Word16) :
    overallParity (fieldBits (v ^^^ w)) = (overallParity (fieldBits v) ^^ overallParity (fieldBits w)) :=
  xorOver_xor v w positions fun _ hp => by simpa [positions] using hp

/-- The syndrome of a sum is the sum of the syndromes. -/
theorem syndrome_xor (v w : Word16) :
    syndrome (fieldBits (v ^^^ w)) = syndrome (fieldBits v) ^^^ syndrome (fieldBits w) := by
  have key : ∀ (ps : List Nat) (a b : BitVec 4), (∀ p ∈ ps, p < 16) →
      ps.foldl (fun acc i => if posBit (fieldBits (v ^^^ w)) i then acc ^^^ BitVec.ofNat 4 i else acc) (a ^^^ b) =
        ps.foldl (fun acc i => if posBit (fieldBits v) i then acc ^^^ BitVec.ofNat 4 i else acc) a ^^^
          ps.foldl (fun acc i => if posBit (fieldBits w) i then acc ^^^ BitVec.ofNat 4 i else acc) b := by
    intro ps
    induction ps with
    | nil => intros; rfl
    | cons p ps ih =>
      intro a b hp
      have h16 : p < 16 := hp p (by simp)
      simp only [List.foldl_cons]
      rw [← ih _ _ fun q hq => hp q (by simp [hq])]
      congr 1
      simp only [posBit_fieldBits, BitVec.getMsbD, BitVec.getLsbD_xor, h16, decide_true, Bool.true_and]
      generalize BitVec.ofNat 4 p = x
      have hx : ∀ y : BitVec 4, y ^^^ x ^^^ x = y := fun y => by rw [BitVec.xor_assoc]; simp
      cases v.getLsbD (16 - 1 - p) <;> cases w.getLsbD (16 - 1 - p)
      · rfl
      · exact BitVec.xor_assoc a b x
      · show a ^^^ b ^^^ x = a ^^^ x ^^^ b
        ac_rfl
      · show a ^^^ b = a ^^^ x ^^^ (b ^^^ x)
        rw [show a ^^^ x ^^^ (b ^^^ x) = a ^^^ b ^^^ x ^^^ x by ac_rfl, hx]
  have h0 := key lowPositions 0#4 0#4 fun p hp => by simp [lowPositions, List.mem_range'] at hp; omega
  exact h0

/-- A word is clean exactly when the syndrome is 0 and the overall parity consistent (41_codec.md R149). -/
theorem classify_clean_iff (s : BitVec 4) (q : Bit) : classify s q = .clean ↔ s = 0#4 ∧ q = false := by
  cases q <;> by_cases h : s = 0#4 <;> simp [classify, h]

/-- A word is corrected exactly when the overall parity is not consistent. -/
theorem classify_corrected_iff (s : BitVec 4) (q : Bit) (p : BitVec 4) :
    classify s q = .correctedSingleBit p ↔ q = true ∧ s = p := by
  cases q <;> by_cases h : s = 0#4 <;> simp [classify, h]

/-- A word is uncorrectable exactly when the syndrome is not 0 and the overall parity is consistent. -/
theorem classify_uncorrectable_iff (s : BitVec 4) (q : Bit) :
    classify s q = .uncorrectableMultiBit ↔ s ≠ 0#4 ∧ q = false := by
  cases q <;> by_cases h : s = 0#4 <;> simp [classify, h]

/-- The parts of a decoded word. -/
theorem decodeWord_eq (w : Word16) :
    decodeWord w =
      (extractData (correct (classify (syndrome (fieldBits w)) (overallParity (fieldBits w))) (fieldBits w)),
        classify (syndrome (fieldBits w)) (overallParity (fieldBits w))) := rfl

end Sys2Proof.Machine
end

