-- ==== Sys2Proof/Laws/Decode.lean ====
section
/-! SUPPORT. Reading opcodes and operand fields of a request. -/

namespace Sys2Proof

open Sys2Proof.Machine

/-- Each opcode's byte selects it. -/
@[simp] theorem Opcode.ofByte_byte (o : Opcode) : Opcode.ofByte o.byte = some o := by
  cases o <;> rfl

/-- A byte that selects an opcode is its byte. -/
theorem Opcode.byte_of_ofByte {b : Byte} {o : Opcode} (h : Opcode.ofByte b = some o) : o.byte = b := by
  simpa using List.find?_some h

/-- The opcode of an instruction made from a request is the opcode of the request. -/
theorem Opcode.instr_opcode {o : Opcode} {req : List Byte} {i : Instr} (h : o.instr req = some i) : i.opcode = o := by
  cases o <;> simp only [Opcode.instr, Option.map_eq_some_iff, Option.some.injEq] at h
  case bbPush => obtain ⟨b, -, rfl⟩ := h; rfl
  case encode => obtain ⟨d, -, rfl⟩ := h; rfl
  all_goals subst h; rfl

/-- Decoding a request with a listed opcode byte: the length check, then the reserved bits. -/
theorem decode_byte_cons (o : Opcode) (ops : List Byte) :
    decode (o.byte :: ops) =
      if o.format.requestLength (o.byte :: ops) = some (ops.length + 1) then
        match o.instr (o.byte :: ops) with
        | some i => .ok i
        | none => .error .illegalOperand
      else .error .illegalOperand := by
  simp only [decode, Opcode.ofByte_byte, List.length_cons] <;> rfl

/-- Decoding a request with a reserved opcode byte. -/
theorem decode_reserved {op : Byte} (ops : List Byte) (h : Opcode.ofByte op = none) :
    decode (op :: ops) = .error .illegalOpcode := by
  simp only [decode, h]

/-- What a request that decodes is made of. -/
theorem decode_eq_ok {req : List Byte} {i : Instr} (h : decode req = .ok i) :
    ∃ (o : Opcode) (ops : List Byte), req = o.byte :: ops ∧ o.format.requestLength req = some req.length ∧ o.instr req = some i := by
  cases req with
  | nil => simp [decode] at h
  | cons op ops =>
    cases ho : Opcode.ofByte op with
    | none => rw [decode_reserved ops ho] at h; cases h
    | some o =>
      have hb := Opcode.byte_of_ofByte ho
      subst hb
      rw [decode_byte_cons] at h
      split at h
      · rename_i hl
        refine ⟨o, ops, rfl, by simpa using hl, ?_⟩
        cases hi : o.instr (o.byte :: ops) with
        | none => rw [hi] at h; cases h
        | some j => rw [hi] at h; cases h; rfl
      · cases h

/-- A bit byte reads back as its bit, with no reserved bit set. -/
theorem operandBit_bit (op : Byte) (b : Bit) : operandBit [op, 0#7 ++ BitVec.ofBool b] = some b := by
  have h : byteAt [op, 0#7 ++ BitVec.ofBool b] 1 = 0#7 ++ BitVec.ofBool b := rfl
  rw [operandBit, h]
  cases b <;> decide

/-- A 16-bit operand reads back from its two bytes. -/
@[simp] theorem operandWord16_bytes16 (op : Byte) (v : Word16) (xs : List Byte) :
    operandWord16 (op :: (bytes16 v ++ xs)) = v :=
  append_bytes16 v

/-- An 11-bit operand reads back from its two bytes, with no reserved bit set. -/
theorem operandData_data (op : Byte) (d : Data) : operandData (op :: bytes16 (0#5 ++ d)) = some d := by
  have h : word16At (op :: bytes16 (0#5 ++ d)) 1 = 0#5 ++ d := append_bytes16 _
  have h1 : (0#5 ++ d : Word16).extractLsb' 11 5 = 0#5 := by
    apply BitVec.eq_of_getLsbD_eq
    intro i hi
    have := BitVec.getLsbD_append (x := 0#5) (y := d) (i := 11 + i)
    simp only [BitVec.getLsbD_extractLsb', hi, decide_true, Bool.true_and]
    simpa using this
  have h2 : (0#5 ++ d : Word16).extractLsb' 0 11 = d := by
    apply BitVec.eq_of_getLsbD_eq
    intro i hi
    have := BitVec.getLsbD_append (x := 0#5) (y := d) (i := i)
    simp only [BitVec.getLsbD_extractLsb', hi, decide_true, Bool.true_and, Nat.zero_add]
    simpa [hi] using this
  rw [operandData, h, if_pos h1, h2]

end Sys2Proof
end

