-- ==== Sys2Proof/Laws/State.lean ====
section
/-! SUPPORT. One lemma per field per state update. -/

namespace Sys2Proof.Machine

/-! ## withLen -/

@[simp] theorem State.withLen_bbN (s : State) (v : Word16) : (s.withLen v).bbN = s.bbN := rfl
@[simp] theorem State.withLen_len (s : State) (v : Word16) : (s.withLen v).len = v := rfl
@[simp] theorem State.withLen_cells (s : State) (v : Word16) : (s.withLen v).cells = s.cells := rfl
@[simp] theorem State.withLen_inputs (s : State) (v : Word16) : (s.withLen v).inputs = s.inputs := rfl
@[simp] theorem State.withLen_responses (s : State) (v : Word16) : (s.withLen v).responses = s.responses := rfl

/-! ## withCells -/

@[simp] theorem State.withCells_bbN (s : State) (m : Cells) : (s.withCells m).bbN = s.bbN := rfl
@[simp] theorem State.withCells_len (s : State) (m : Cells) : (s.withCells m).len = s.len := rfl
@[simp] theorem State.withCells_cells (s : State) (m : Cells) : (s.withCells m).cells = m := rfl
@[simp] theorem State.withCells_inputs (s : State) (m : Cells) : (s.withCells m).inputs = s.inputs := rfl
@[simp] theorem State.withCells_responses (s : State) (m : Cells) : (s.withCells m).responses = s.responses := rfl

/-! ## withInputs -/

@[simp] theorem State.withInputs_bbN (s : State) (evs : List HostEvent) : (s.withInputs evs).bbN = s.bbN := rfl
@[simp] theorem State.withInputs_len (s : State) (evs : List HostEvent) : (s.withInputs evs).len = s.len := rfl
@[simp] theorem State.withInputs_cells (s : State) (evs : List HostEvent) : (s.withInputs evs).cells = s.cells := rfl
@[simp] theorem State.withInputs_inputs (s : State) (evs : List HostEvent) : (s.withInputs evs).inputs = evs := rfl
@[simp] theorem State.withInputs_responses (s : State) (evs : List HostEvent) : (s.withInputs evs).responses = s.responses :=
  rfl

/-! ## respond -/

@[simp] theorem State.respond_bbN (s : State) (st : RspStatus) (xs : List Byte) : (s.respond st xs).bbN = s.bbN := rfl
@[simp] theorem State.respond_len (s : State) (st : RspStatus) (xs : List Byte) : (s.respond st xs).len = s.len := rfl
@[simp] theorem State.respond_cells (s : State) (st : RspStatus) (xs : List Byte) : (s.respond st xs).cells = s.cells :=
  rfl
@[simp] theorem State.respond_inputs (s : State) (st : RspStatus) (xs : List Byte) : (s.respond st xs).inputs = s.inputs :=
  rfl
@[simp] theorem State.respond_responses (s : State) (st : RspStatus) (xs : List Byte) : (s.respond st xs).responses = s.responses ++ [st.code :: xs] :=
  rfl

/-! ## raise -/

@[simp] theorem State.raise_bbN (s : State) (st : RspStatus) : (s.raise st).bbN = s.bbN := rfl
@[simp] theorem State.raise_len (s : State) (st : RspStatus) : (s.raise st).len = s.len := rfl
@[simp] theorem State.raise_cells (s : State) (st : RspStatus) : (s.raise st).cells = s.cells := rfl
@[simp] theorem State.raise_inputs (s : State) (st : RspStatus) : (s.raise st).inputs = s.inputs := rfl
@[simp] theorem State.raise_responses (s : State) (st : RspStatus) : (s.raise st).responses = s.responses ++ [[st.code]] :=
  rfl

/-! ## answerIllegal -/

@[simp] theorem State.answerIllegal_bbN (s : State) (e : IllegalRequest) : (s.answerIllegal e).bbN = s.bbN := rfl
@[simp] theorem State.answerIllegal_len (s : State) (e : IllegalRequest) : (s.answerIllegal e).len = s.len := rfl
@[simp] theorem State.answerIllegal_cells (s : State) (e : IllegalRequest) : (s.answerIllegal e).cells = s.cells := rfl
@[simp] theorem State.answerIllegal_inputs (s : State) (e : IllegalRequest) : (s.answerIllegal e).inputs = s.inputs :=
  rfl
@[simp] theorem State.answerIllegal_responses (s : State) (e : IllegalRequest) : (s.answerIllegal e).responses = s.responses ++ [[(illegalStatus e).code]] :=
  rfl

/-! ## resetBlock -/

@[simp] theorem State.resetBlock_bbN (s : State) : s.resetBlock.bbN = s.bbN := rfl
@[simp] theorem State.resetBlock_len (s : State) : s.resetBlock.len = 0#16 := rfl
@[simp] theorem State.resetBlock_cells (s : State) : s.resetBlock.cells = [] := rfl
@[simp] theorem State.resetBlock_inputs (s : State) : s.resetBlock.inputs = s.inputs := rfl
@[simp] theorem State.resetBlock_responses (s : State) : s.resetBlock.responses = s.responses := rfl

/-! ## withFetchWord -/

@[simp] theorem State.withFetchWord_bbN (s : State) (nbits w : Nat) : (s.withFetchWord nbits w).bbN = s.bbN := rfl
@[simp] theorem State.withFetchWord_len (s : State) (nbits w : Nat) : (s.withFetchWord nbits w).len = s.len := rfl
@[simp] theorem State.withFetchWord_cells (s : State) (nbits w : Nat) : (s.withFetchWord nbits w).cells = s.cells := rfl
@[simp] theorem State.withFetchWord_inputs (s : State) (nbits w : Nat) : (s.withFetchWord nbits w).inputs = .request (tableRequest nbits w) :: s.inputs :=
  rfl
@[simp] theorem State.withFetchWord_responses (s : State) (nbits w : Nat) : (s.withFetchWord nbits w).responses = s.responses :=
  rfl

/-! ## Field by field -/

/-- Two states with the same five fields are the same state. -/
theorem State.eq_of_fields {s t : State} (hN : s.bbN = t.bbN) (hl : s.len = t.len) (hc : s.cells = t.cells)
    (hi : s.inputs = t.inputs) (hr : s.responses = t.responses) : s = t := by
  cases s; cases t; simp_all

/-- Putting the same events back changes nothing. -/
@[simp] theorem State.withInputs_self (s : State) : s.withInputs s.inputs = s := rfl

end Sys2Proof.Machine
end

