-- ==== Sys2Proof/Laws/Exec.lean ====
section
/-! SUPPORT. What each meaning and each step can do, said once: the provers cite these instead of unfolding. -/

namespace Sys2Proof.Machine

open Host

/-! ## The meanings with more than one way to go -/

/-- BB.PUSH below the capacity. -/
theorem execBbPush_of_lt {s : State} (b : Bit) (h : s.len.toNat < s.bbN.toNat) :
    execBbPush b s =
      .next (((s.withCells (s.cells.write s.len.toNat b)).withLen (s.len + 1#16)).respond .ok []) := by
  rw [execBbPush, if_pos h]

/-- BB.PUSH at the capacity. -/
theorem execBbPush_of_le {s : State} (b : Bit) (h : s.bbN.toNat ≤ s.len.toNat) :
    execBbPush b s = .next (s.raise .capacityExceeded) := by
  rw [execBbPush, if_neg (by omega)]

/-- BB.POP of an empty buffer. -/
theorem execBbPop_of_empty {s : State} (h : s.len = 0#16) : execBbPop s = .next (s.raise .empty) := by
  rw [execBbPop, if_pos h]

/-- BB.POP of a buffer whose last cell is set. -/
theorem execBbPop_of_read {s : State} {b : Bit} (h : s.len ≠ 0#16) (hb : s.cells.read (s.len.toNat - 1) = some b) :
    execBbPop s =
      .next (((s.withCells (s.cells.unset (s.len.toNat - 1))).withLen (s.len - 1#16)).respond .ok [flagByte b]) := by
  rw [execBbPop, if_neg h, hb]

/-- BB.GET from the length on. -/
theorem execBbGet_of_le {s : State} {i : Word16} (h : s.len.toNat ≤ i.toNat) :
    execBbGet i s = .next (s.raise .indexOutOfRange) := by
  rw [execBbGet, if_pos h]

/-- BB.GET of a cell below the length that is set. -/
theorem execBbGet_of_read {s : State} {i : Word16} {b : Bit} (h : i.toNat < s.len.toNat)
    (hb : s.cells.read i.toNat = some b) : execBbGet i s = .next (s.respond .ok [flagByte b]) := by
  rw [execBbGet, if_neg (by omega), hb]

/-- BB.LOADB of more bits than the capacity. -/
theorem execBbLoadb_of_lt {s : State} {xs : List Byte} (h : s.bbN.toNat < 8 * xs.length) :
    execBbLoadb xs s = .next (s.raise .capacityExceeded) := by
  rw [execBbLoadb, if_pos h]

/-- BB.LOADB of bits that fit. -/
theorem execBbLoadb_of_le {s : State} {xs : List Byte} (h : 8 * xs.length ≤ s.bbN.toNat) :
    execBbLoadb xs s =
      .next (((s.withCells (Cells.ofBits (bytesBits xs))).withLen (BitVec.ofNat 16 (8 * xs.length))).respond .ok []) := by
  rw [execBbLoadb, if_neg (by omega)]

/-! ## The cells of a state with the invariants -/

/-- Below the length every cell is set. -/
theorem State.Inv.read_isSome {s : State} (h : s.Inv) {i : Nat} (hi : i < s.len.toNat) :
    ∃ b, s.cells.read i = some b :=
  Option.ne_none_iff_exists'.1 ((h.setBelowLen i).2 hi)

/-- From the length on every cell is UNSET. -/
theorem State.Inv.read_eq_none {s : State} (h : s.Inv) {i : Nat} (hi : s.len.toNat ≤ i) : s.cells.read i = none := by
  by_contra hc
  have := (h.setBelowLen i).1 hc
  omega

/-- A store whose indices are 0, 1, ..., n - 1 is canonical, and exactly its first n cells are set. -/
theorem Cells.read_ne_none_iff_of_map_fst {m : Cells} (i : Nat) : m.read i ≠ none ↔ i ∈ m.map Prod.fst := by
  induction m with
  | nil => simp
  | cons c t ih =>
    obtain ⟨j, b⟩ := c
    by_cases h : i = j
    · simp [Cells.read_cons, h]
    · rw [Cells.read_cons, if_neg h, ih]
      simp [h]

/-- The invariants of a state whose cells are listed at 0, 1, ..., len - 1. -/
theorem State.Inv.of_indices {s : State} (hlen : s.len.toNat ≤ s.bbN.toNat)
    (h : s.cells.map Prod.fst = List.range s.len.toNat) : s.Inv where
  lenInRange := hlen
  cellsCanonical := by rw [Cells.wf, h]; exact List.pairwise_lt_range
  setBelowLen i := by rw [Cells.read_ne_none_iff_of_map_fst, h, List.mem_range]

/-! ## What every command can do -/

/-- The three ways a command can leave the buffer: as it was, with one cell and the length changed, or with other
contents. Whatever the command, it gives one response and touches neither the capacity nor the host's events. -/
theorem exec_next_shape {i : Instr} {s t : State} (h : exec i s = .next t) :
    t.bbN = s.bbN ∧ t.inputs = s.inputs ∧ ∃ st bytes, t.responses = s.responses ++ [RspStatus.code st :: bytes] := by
  cases i
  case bbPush b =>
    rcases Nat.lt_or_ge s.len.toNat s.bbN.toNat with hl | hl
    · rw [exec, execBbPush_of_lt b hl] at h
      cases h
      exact ⟨rfl, rfl, _, _, rfl⟩
    · rw [exec, execBbPush_of_le b hl] at h
      cases h
      exact ⟨rfl, rfl, _, _, rfl⟩
  case bbPop =>
    by_cases h0 : s.len = 0#16
    · rw [exec, execBbPop_of_empty h0] at h
      cases h
      exact ⟨rfl, rfl, _, _, rfl⟩
    · cases hb : s.cells.read (s.len.toNat - 1) with
      | none => simp [exec, execBbPop, h0, hb] at h
      | some b =>
        rw [exec, execBbPop_of_read h0 hb] at h
        cases h
        exact ⟨rfl, rfl, _, _, rfl⟩
  case bbGet i =>
    rcases Nat.lt_or_ge i.toNat s.len.toNat with hl | hl
    · cases hb : s.cells.read i.toNat with
      | none => simp [exec, execBbGet, Nat.not_le.2 hl, hb] at h
      | some b =>
        rw [exec, execBbGet_of_read hl hb] at h
        cases h
        exact ⟨rfl, rfl, _, _, rfl⟩
    · rw [exec, execBbGet_of_le hl] at h
      cases h
      exact ⟨rfl, rfl, _, _, rfl⟩
  case bbLoadb xs =>
    rcases Nat.lt_or_ge s.bbN.toNat (8 * xs.length) with hl | hl
    · rw [exec, execBbLoadb_of_lt hl] at h
      cases h
      exact ⟨rfl, rfl, _, _, rfl⟩
    · rw [exec, execBbLoadb_of_le hl] at h
      cases h
      exact ⟨rfl, rfl, _, _, rfl⟩
  case serialize img =>
    cases hr : recordOfImage img <;> simp only [exec, execSerialize, hr] at h <;> cases h <;>
      exact ⟨rfl, rfl, _, _, rfl⟩
  case deserialize img =>
    cases hr : deserializeBits (bytesBits img) <;> simp only [exec, execDeserialize, hr] at h <;> cases h <;>
      exact ⟨rfl, rfl, _, _, rfl⟩
  case frame img =>
    cases hr : recordOfImage img <;> simp only [exec, execFrame, hr] at h <;> cases h <;>
      exact ⟨rfl, rfl, _, _, rfl⟩
  case unframe msg =>
    cases hr : unframeMessage msg <;> simp only [exec, execUnframe, hr] at h <;> cases h <;>
      exact ⟨rfl, rfl, _, _, rfl⟩
  all_goals
    cases h
    exact ⟨rfl, rfl, _, _, rfl⟩

/-! ## What every step can do -/

/-- The ways a step can go on: the block waits; a decoded command is performed; a request that is no command is answered;
the block is reset. -/
theorem step_next_cases {s t : State} (h : step s = .next t) :
    (s.inputs = [] ∧ t = s) ∨
    (∃ req evs i, s.inputs = .request req :: evs ∧ decode req = .ok i ∧ exec i (s.withInputs evs) = .next t) ∨
    (∃ req evs e, s.inputs = .request req :: evs ∧ decode req = .error e ∧ t = (s.withInputs evs).answerIllegal e) ∨
    (∃ evs, s.inputs = .reset :: evs ∧ t = (s.withInputs evs).resetBlock) ∨
    (∃ req evs, s.inputs = .resetDuring req :: evs ∧ t = (s.withInputs evs).resetBlock) := by
  cases hin : s.inputs with
  | nil =>
    simp only [step, hin] at h
    cases h
    exact .inl ⟨rfl, rfl⟩
  | cons ev evs =>
    cases ev with
    | request req =>
      simp only [step, hin, performRequest] at h
      cases hd : decode req with
      | ok i =>
        rw [hd] at h
        exact .inr (.inl ⟨req, evs, i, rfl, hd, h⟩)
      | error e =>
        rw [hd] at h
        cases h
        exact .inr (.inr (.inl ⟨req, evs, e, rfl, hd, rfl⟩))
    | earlyRequest req => simp [step, hin] at h
    | reset =>
      simp only [step, hin] at h
      cases h
      exact .inr (.inr (.inr (.inl ⟨evs, rfl, rfl⟩)))
    | resetDuring req =>
      simp only [step, hin] at h
      cases h
      exact .inr (.inr (.inr (.inr ⟨req, evs, rfl, rfl⟩)))

/-- A step on a request that decodes. -/
theorem step_of_decode_ok {s : State} {req : List Byte} {evs : List HostEvent} {i : Instr}
    (hin : s.inputs = .request req :: evs) (hd : decode req = .ok i) : step s = exec i (s.withInputs evs) := by
  simp only [step, hin, performRequest, hd]

/-- A step on a request that is no command. -/
theorem step_of_decode_error {s : State} {req : List Byte} {evs : List HostEvent} {e : IllegalRequest}
    (hin : s.inputs = .request req :: evs) (hd : decode req = .error e) :
    step s = .next ((s.withInputs evs).answerIllegal e) := by
  simp only [step, hin, performRequest, hd]

end Sys2Proof.Machine
end

