-- ==== Sys2Proof/Laws/Framer.lean ====
section
/-! SUPPORT. Records and Messages: lengths, packing and unpacking words, cutting and joining the padded stream. -/

namespace Sys2Proof.Machine

/-! ## Lengths -/

@[simp] theorem recordImage_length (r : TelemetryRecord) : (recordImage r).length = 61 := by
  rw [recordImage, bitsBytes_length]
  rfl

@[simp] theorem serializeRecord_length (r : TelemetryRecord) : (serializeRecord r).length = 488 := by
  simp [serializeRecord, Position.bits, Velocity.bits, Timestamp.bits]

@[simp] theorem padStream_length (bs : List Bit) : (padStream bs).length = bs.length + 7 := by
  simp [padStream, Config.padBits]

@[simp] theorem packWords_nil : packWords [] = [] := rfl

@[simp] theorem packWords_cons (w : Word16) (ws : List Word16) : packWords (w :: ws) = bytes16 w ++ packWords ws := rfl

@[simp] theorem packWords_length (ws : List Word16) : (packWords ws).length = 2 * ws.length := by
  induction ws with
  | nil => rfl
  | cons w ws ih => simp [ih]; omega

@[simp] theorem messageWords_length (r : TelemetryRecord) : (messageWords r).length = 45 := by
  rw [messageWords, List.length_map, List.length_range]
  rfl

@[simp] theorem frameRecord_length (r : TelemetryRecord) : (frameRecord r).length = 90 := by
  rw [frameRecord, packWords_length, messageWords_length]

@[simp] theorem unpackWords_length (msg : List Byte) : (unpackWords msg).length = 45 := by
  rw [unpackWords, List.length_map, List.length_range]
  rfl

@[simp] theorem decodeBlocks_length (msg : List Byte) : (decodeBlocks msg).length = 45 := by
  rw [decodeBlocks, List.length_map, unpackWords_length]

/-! ## Packing words -/

/-- The word at bytes 2j and 2j + 1 of packed words is word j. -/
theorem word16At_packWords (ws : List Word16) (j : Nat) (h : j < ws.length) :
    word16At (packWords ws) (2 * j) = ws[j] := by
  induction ws generalizing j with
  | nil => simp at h
  | cons w ws ih =>
    cases j with
    | zero => exact word16At_bytes16 w _
    | succ j =>
      rw [packWords_cons, show 2 * (j + 1) = (bytes16 w).length + 2 * j by simp; omega, word16At_append_right]
      exact ih j (by simpa using h)

/-- The words of a packed Message are the words packed (43_framer.md R211). -/
theorem unpackWords_packWords {ws : List Word16} (h : ws.length = 45) : unpackWords (packWords ws) = ws := by
  apply List.ext_getElem
  · simp [h]
  · intro j h1 h2
    simp [unpackWords, word16At_packWords ws j h2]

/-- The decoded blocks of packed words are the words decoded. -/
theorem decodeBlocks_packWords {ws : List Word16} (h : ws.length = 45) :
    decodeBlocks (packWords ws) = ws.map decodeWord := by
  rw [decodeBlocks, unpackWords_packWords h]

/-! ## Cutting the padded stream into groups -/

/-- The bits of group j are the bits 11j to 11j + 10 of the stream. -/
theorem fieldBits_groupData {f : List Bit} {j : Nat} (h : 11 * j + 11 ≤ f.length) :
    fieldBits (groupData f j) = sliceBits (11 * j) 11 f :=
  fieldBits_bitsField (by
    simp only [sliceBits, Config.dataBits, List.length_take, List.length_drop]
    omega)

/-- The first n groups of a stream, joined, are its first 11n bits. -/
theorem flatMap_groupData {f : List Bit} {n : Nat} (h : 11 * n ≤ f.length) :
    ((List.range n).flatMap fun j => fieldBits (groupData f j)) = f.take (11 * n) := by
  induction n with
  | zero => simp
  | succ n ih =>
    rw [List.range_succ, List.flatMap_append, ih (by omega)]
    simp only [List.flatMap_cons, List.flatMap_nil, List.append_nil]
    rw [fieldBits_groupData (by omega), sliceBits, show 11 * (n + 1) = 11 * n + 11 by omega, List.take_add]

/-- The 45 groups of a padded record, joined, are the padded record (43_framer.md R213). -/
theorem flatMap_groups_padStream (r : TelemetryRecord) :
    ((List.range 45).flatMap fun j => fieldBits (groupData (padStream (serializeRecord r)) j)) =
      padStream (serializeRecord r) := by
  rw [flatMap_groupData (by simp), List.take_of_length_le (by simp)]

/-- The first 488 bits of a padded record are the record. -/
theorem take_padStream (r : TelemetryRecord) :
    (padStream (serializeRecord r)).take Config.recordBits = serializeRecord r := by
  rw [padStream, List.take_left' (by rw [serializeRecord_length]; rfl)]

/-! ## Unframing -/

/-- Unframing with an uncorrectable block. -/
theorem unframeMessage_of_uncorrectable {msg : List Byte} {j : Nat}
    (h : (decodeBlocks msg).findIdx? (fun b => b.2.isUncorrectable) = some j) :
    unframeMessage msg = .unrecoverableChannel j := by
  rw [unframeMessage, h]

/-- Unframing with no uncorrectable block and no valid record. -/
theorem unframeMessage_of_malformed {msg : List Byte}
    (h : (decodeBlocks msg).findIdx? (fun b => b.2.isUncorrectable) = none)
    (hr : deserializeBits ((blockBits (decodeBlocks msg)).take Config.recordBits) = none) :
    unframeMessage msg = .invalidRecord := by
  rw [unframeMessage, h, hr]

/-- Unframing with no uncorrectable block and a valid record. -/
theorem unframeMessage_of_record {msg : List Byte} {r : TelemetryRecord}
    (h : (decodeBlocks msg).findIdx? (fun b => b.2.isUncorrectable) = none)
    (hr : deserializeBits ((blockBits (decodeBlocks msg)).take Config.recordBits) = some r) :
    unframeMessage msg = .record r (anyCorrected ((decodeBlocks msg).map Prod.snd)) := by
  rw [unframeMessage, h, hr]

end Sys2Proof.Machine
end

