-- ==== Sys2Proof/Laws/PerInstr.lean ====
section
/-! SUPPORT. One lemma per constructor: the length of an instruction's request is the one its format fixes. -/

namespace Sys2Proof.Laws

open Sys2Proof.Machine

/-- The request of a well-formed instruction has the length its opcode's format fixes (30_encoding.md R63, R65, R71). -/
def RequestLength.Statement (i : Instr) : Prop :=
  i.wellFormed = true → i.opcode.format.requestLength (Sys2Proof.encode i) = some (Sys2Proof.encode i).length

theorem RequestLength.bbClear : RequestLength.Statement .bbClear := fun _ => rfl

theorem RequestLength.bbPush (b : Bit) : RequestLength.Statement (.bbPush b) := fun _ => rfl

theorem RequestLength.bbPop : RequestLength.Statement .bbPop := fun _ => rfl

theorem RequestLength.bbLen : RequestLength.Statement .bbLen := fun _ => rfl

theorem RequestLength.bbCap : RequestLength.Statement .bbCap := fun _ => rfl

theorem RequestLength.bbGet (i : Word16) : RequestLength.Statement (.bbGet i) := fun _ => rfl

theorem RequestLength.bbLoadb (xs : List Byte) : RequestLength.Statement (.bbLoadb xs) := by
  intro h
  have hl : xs.length ≤ 65535 := by simpa [Instr.wellFormed] using h
  have hk : operandWord16 (Sys2Proof.encode (.bbLoadb xs)) = BitVec.ofNat 16 xs.length := operandWord16_bytes16 _ _ _
  simp only [Instr.opcode, Opcode.format, Format.requestLength, hk, BitVec.toNat_ofNat]
  rw [if_neg (by simp [Sys2Proof.encode, Instr.operandBytes, bytes16])]
  simp only [Sys2Proof.encode, Instr.operandBytes, bytes16, List.cons_append, List.nil_append, List.length_cons]
  rw [Nat.mod_eq_of_lt (by omega)]
  congr 1
  omega

theorem RequestLength.encode (d : Data) : RequestLength.Statement (.encode d) := fun _ => rfl

theorem RequestLength.decode (w : Word16) : RequestLength.Statement (.decode w) := fun _ => rfl

theorem RequestLength.serialize (img : List Byte) : RequestLength.Statement (.serialize img) := by
  intro h
  have hl : img.length = Config.recordBytes := by simpa [Instr.wellFormed] using h
  simp [Instr.opcode, Opcode.format, Format.requestLength, Sys2Proof.encode, Instr.operandBytes, hl, Nat.add_comm]

theorem RequestLength.deserialize (img : List Byte) : RequestLength.Statement (.deserialize img) := by
  intro h
  have hl : img.length = Config.recordBytes := by simpa [Instr.wellFormed] using h
  simp [Instr.opcode, Opcode.format, Format.requestLength, Sys2Proof.encode, Instr.operandBytes, hl, Nat.add_comm]

theorem RequestLength.frame (img : List Byte) : RequestLength.Statement (.frame img) := by
  intro h
  have hl : img.length = Config.recordBytes := by simpa [Instr.wellFormed] using h
  simp [Instr.opcode, Opcode.format, Format.requestLength, Sys2Proof.encode, Instr.operandBytes, hl, Nat.add_comm]

theorem RequestLength.unframe (msg : List Byte) : RequestLength.Statement (.unframe msg) := by
  intro h
  have hl : msg.length = Config.messageBytes := by simpa [Instr.wellFormed] using h
  simp [Instr.opcode, Opcode.format, Format.requestLength, Sys2Proof.encode, Instr.operandBytes, hl, Nat.add_comm]

end Sys2Proof.Laws
end

