-- ==== Sys2Proof/Tests/Slice0.lean ====
section
/-! SUPPORT. Tests. Every expected value is from 95_test_vectors.md or an example of the rule named beside it; the witnesses
at the end meet the hypotheses of the statements, each clause at a boundary of its range. -/

namespace Sys2Proof.Tests

open Sys2Proof.Machine Sys2Proof.Statements

/-! ## Helpers -/

/-- A state of capacity n that holds these bits, with nothing at the port. -/
def st (n : Word16) (bits : List Bit) : State where
  bbN := n
  len := BitVec.ofNat 16 bits.length
  cells := Cells.ofBits bits
  inputs := []
  responses := []

/-- The length, the cells and the responses after one step on a request. -/
def after (s : State) (req : List Byte) : Option (Nat × Cells × List (List Byte)) :=
  match step (sent s req) with
  | .next t => some (t.len.toNat, t.cells, t.responses)
  | .fault _ => none
  | .refused _ => none

/-- A state of these bits meets the invariants. -/
theorem st_inv {n : Word16} {bits : List Bit} (h : bits.length ≤ n.toNat) : (st n bits).Inv := by
  have hn := n.isLt
  have hl : (st n bits).len.toNat = bits.length := by
    show (BitVec.ofNat 16 bits.length).toNat = _
    rw [BitVec.toNat_ofNat, Nat.mod_eq_of_lt (by omega)]
  refine State.Inv.of_indices (by rw [hl]; exact h) ?_
  rw [hl]
  exact Cells.map_fst_ofBits bits

/-- The scenario record image of 95_test_vectors.md section 1.2. -/
def img : List Byte :=
  ([
    0x50, 0x48, 0x58, 0x30, 0x30, 0x30, 0x30, 0x30, 0x30, 0x30, 0x30, 0x30, 0x30, 0x30, 0x30, 0x30,
    0x30, 0x30, 0x31, 0x00, 0x42, 0x1B, 0x97, 0x3F, 0xC2, 0x9A, 0x12, 0xB0, 0x00, 0x64, 0x42, 0x1B,
    0x97, 0x3F, 0xC2, 0x9A, 0x12, 0xB0, 0x00, 0x64, 0x00, 0x00, 0x00, 0x00, 0x00, 0x00, 0x00, 0x00,
    0x00, 0x00, 0x00, 0x00, 0x07, 0xE8, 0x06, 0x0F, 0x02, 0x93, 0x2E, 0x00, 0x00] : List Nat).map (BitVec.ofNat 8)

/-- The scenario Message of 95_test_vectors.md section 1.3. -/
def msg : List Byte :=
  ([
    0x8D, 0x82, 0xCC, 0x96, 0x60, 0x60, 0xA6, 0x03, 0xE8, 0x18, 0xA9, 0xC0, 0x5C, 0x06, 0xC0, 0x30,
    0x2B, 0x81, 0x30, 0x0C, 0x60, 0x60, 0xA6, 0x03, 0xE8, 0x18, 0xE1, 0x44, 0x88, 0x88, 0xE4, 0x1B,
    0x39, 0x39, 0xFF, 0xF0, 0xD2, 0xB4, 0x42, 0x2B, 0x00, 0x00, 0x4B, 0x11, 0x00, 0xC3, 0xE7, 0x17,
    0x2B, 0x7E, 0xA9, 0xA6, 0xF0, 0xA5, 0x66, 0x00, 0xE8, 0xB2, 0x00, 0x00, 0x00, 0x00, 0x00, 0x00,
    0x00, 0x00, 0x00, 0x00, 0x00, 0x00, 0x00, 0x00, 0x00, 0x00, 0x00, 0x00, 0x41, 0x7D, 0x60, 0x06,
    0x88, 0x78, 0x81, 0x24, 0x5C, 0x5C, 0x00, 0x00, 0x00, 0x00] : List Nat).map (BitVec.ofNat 8)

/-! ## Well-formedness: each check refuses an ill-formed term -/

theorem test_wf_loadb_too_long : (Instr.bbLoadb (List.replicate 65536 0#8)).wellFormed = false := by
  rw [Instr.wellFormed, List.length_replicate]
  decide

theorem test_wf_serialize_short : (Instr.serialize (List.replicate 60 0#8)).wellFormed = false := by decide

theorem test_wf_deserialize_long : (Instr.deserialize (List.replicate 62 0#8)).wellFormed = false := by decide

theorem test_wf_frame_empty : (Instr.frame []).wellFormed = false := by decide

theorem test_wf_unframe_short : (Instr.unframe (List.replicate 89 0#8)).wellFormed = false := by decide

theorem test_wf_scenario : (Instr.frame img).wellFormed = true ∧ (Instr.unframe msg).wellFormed = true := by decide

/-! ## Decoding: one request of each opcode, written out from 30_encoding.md R63 to R65 and R73 -/

theorem test_decode_bbClear : decode [0x01#8] = .ok .bbClear := by decide

theorem test_decode_bbPush : decode [0x02#8, 0b00000001#8] = .ok (.bbPush true) := by decide

theorem test_decode_bbPop : decode [0x03#8] = .ok .bbPop := by decide

theorem test_decode_bbLen : decode [0x04#8] = .ok .bbLen := by decide

theorem test_decode_bbCap : decode [0x05#8] = .ok .bbCap := by decide

theorem test_decode_bbGet : decode [0x06#8, 0x12#8, 0x34#8] = .ok (.bbGet 0x1234#16) := by decide

theorem test_decode_bbLoadb : decode [0x07#8, 0x00#8, 0x02#8, 0xA5#8, 0x3C#8] = .ok (.bbLoadb [0xA5#8, 0x3C#8]) := by
  decide

theorem test_decode_encode : decode [0x10#8, 0x05#8, 0xA3#8] = .ok (.encode 0b10110100011#11) := by decide

theorem test_decode_decode : decode [0x11#8, 0x53#8, 0xA3#8] = .ok (.decode 0x53A3#16) := by decide

theorem test_decode_serialize : decode (0x20#8 :: img) = .ok (.serialize img) := by decide +kernel

theorem test_decode_deserialize : decode (0x21#8 :: img) = .ok (.deserialize img) := by decide +kernel

theorem test_decode_frame : decode (0x30#8 :: img) = .ok (.frame img) := by decide +kernel

theorem test_decode_unframe : decode (0x31#8 :: msg) = .ok (.unframe msg) := by decide +kernel

/-- 95_test_vectors.md section 2.9, steps 1 to 3. -/
theorem test_decode_illegal :
    decode [] = .error .illegalOpcode ∧ decode [0x08#8] = .error .illegalOpcode ∧
    decode [0xFF#8, 0#8, 0#8] = .error .illegalOpcode ∧ decode [0x01#8, 0x00#8] = .error .illegalOperand ∧
    decode [0x07#8, 0x00#8, 0x02#8, 0xAA#8] = .error .illegalOperand ∧ decode [0x02#8, 0x03#8] = .error .illegalOperand ∧
    decode [0x10#8, 0x80#8, 0x00#8] = .error .illegalOperand := by decide

/-- The words of the opcode table: the first byte is bits 7 to 0, and the bits past the table's are 0. -/
theorem test_decode_table_words :
    decodeTableWord 8 0x01 = some .bbClear ∧ decodeTableWord 16 0x0102 = some (.bbPush true) ∧
    decodeTableWord 8 0x07 = some (.bbLoadb []) ∧ decodeTableWord 24 0xA30510 = some (.encode 0x5A3#11) ∧
    decodeTableWord 8 0x30 = some (.frame (List.replicate 61 0#8)) ∧ decodeTableWord 16 0x0202 = none := by
  decide +kernel

/-! ## One step of each command -/

/-- 95_test_vectors.md section 2.1, R100. -/
theorem test_clear : after (st 3 [true, false]) [0x01#8] = some (0, [], [[0x00#8]]) := by decide

/-- 95_test_vectors.md section 1.7, R101: one below the capacity, and at it. -/
theorem test_push_below : after (st 2 [true]) [0x02#8, 0x00#8] = some (2, [(0, true), (1, false)], [[0x00#8]]) := by
  decide

theorem test_push_full :
    after (st 2 [true, false]) [0x02#8, 0x01#8] = some (2, [(0, true), (1, false)], [[0x01#8]]) := by decide

/-- 95_test_vectors.md section 2.1, R102. -/
theorem test_pop_last : after (st 3 [true, false, true]) [0x03#8] =
    some (2, [(0, true), (1, false)], [[0x00#8, 0x01#8]]) := by decide

theorem test_pop_empty : after (st 3 []) [0x03#8] = some (0, [], [[0x02#8]]) := by decide

/-- 95_test_vectors.md section 2.1, R103. -/
theorem test_len : after (st 3 [true, false]) [0x04#8] =
    some (2, [(0, true), (1, false)], [[0x00#8, 0x00#8, 0x02#8]]) := by decide

/-- 95_test_vectors.md section 2.1, R104: BB_N = 495. -/
theorem test_cap : after (st 495 []) [0x05#8] = some (0, [], [[0x00#8, 0x01#8, 0xEF#8]]) := by decide

/-- 95_test_vectors.md section 2.1, R105: the last index below the length, and the length. -/
theorem test_get_last : after (st 3 [true, false, true]) [0x06#8, 0x00#8, 0x02#8] =
    some (3, [(0, true), (1, false), (2, true)], [[0x00#8, 0x01#8]]) := by decide

theorem test_get_at_len : after (st 3 [true, false, true]) [0x06#8, 0x00#8, 0x03#8] =
    some (3, [(0, true), (1, false), (2, true)], [[0x03#8]]) := by decide

/-- 95_test_vectors.md section 2.1, R106: the old contents go, most significant bit first. -/
theorem test_loadb : (after (st 16 [true]) [0x07#8, 0x00#8, 0x01#8, 0xA5#8]).map (fun v => (v.1, v.2.1.map Prod.snd)) =
    some (8, [true, false, true, false, false, true, false, true]) := by decide +kernel

theorem test_loadb_too_long : after (st 16 [true]) [0x07#8, 0x00#8, 0x03#8, 0x01#8, 0x02#8, 0x03#8] =
    some (1, [(0, true)], [[0x01#8]]) := by decide +kernel

/-- 95_test_vectors.md section 2.2. -/
theorem test_encode : after (st 3 [true]) [0x10#8, 0x05#8, 0xA3#8] =
    some (1, [(0, true)], [[0x00#8, 0x53#8, 0xA3#8]]) := by decide +kernel

/-- 95_test_vectors.md sections 1.5 and 1.6: position 0 corrected; two flips, the data as received. -/
theorem test_decode_position_0 : after (st 3 []) [0x11#8, 0xD3#8, 0xA3#8] =
    some (0, [], [[0x00#8, 0x05#8, 0xA3#8, 0x01#8, 0x00#8]]) := by decide +kernel

theorem test_decode_two_flips : after (st 3 []) [0x11#8, 0x47#8, 0xA3#8] =
    some (0, [], [[0x00#8, 0x03#8, 0xA3#8, 0x02#8, 0x00#8]]) := by decide +kernel

/-- 95_test_vectors.md section 2.7. -/
theorem test_serialize : after (st 3 []) (0x20#8 :: img) = some (0, [], [0x00#8 :: img]) := by decide +kernel

theorem test_serialize_bad_status : after (st 3 []) (0x20#8 :: (img.take 60 ++ [0x02#8])) = some (0, [], [[0x07#8]]) := by
  decide +kernel

theorem test_deserialize_any_bytes :
    after (st 3 []) (0x21#8 :: (List.replicate 60 0xFF#8 ++ [0x00#8])) =
      some (0, [], [0x00#8 :: (List.replicate 60 0xFF#8 ++ [0x00#8])]) := by decide +kernel

theorem test_deserialize_bad_status :
    after (st 3 []) (0x21#8 :: (img.take 60 ++ [0x02#8])) = some (0, [], [[0x04#8]]) := by decide +kernel

/-- 95_test_vectors.md sections 1.3 and 2.8. -/
theorem test_frame : after (st 3 [true]) (0x30#8 :: img) = some (1, [(0, true)], [0x00#8 :: msg]) := by decide +kernel

theorem test_unframe_corrected : after (st 3 []) (0x31#8 :: msg.set 6 0xE6#8) =
    some (0, [], [0x00#8 :: (img ++ [0x01#8])]) := by decide +kernel

/-- 95_test_vectors.md section 2.8: two flips in block 3 win over the invalid record of block 44. -/
theorem test_unframe_uncorrectable :
    after (st 3 []) (0x31#8 :: ((msg.set 6 0x66#8).take 88 ++ [0xAA#8, 0x00#8])) = some (0, [], [[0x05#8, 0x03#8]]) := by
  decide +kernel

/-! ## The port -/

/-- A request that is no command: 95_test_vectors.md section 2.9. -/
theorem test_illegal_answers :
    after (st 3 [true]) [0x12#8] = some (1, [(0, true)], [[0x08#8]]) ∧
    after (st 3 [true]) [0x11#8, 0x00#8] = some (1, [(0, true)], [[0x07#8]]) :=
  ⟨by decide, by decide⟩

/-- A word placed for the fetch is what the very next step from reset runs: BB.CAP, whatever the capacity. -/
theorem test_fetch_from_reset : step (State.reset.withFetchWord 8 0x05) = exec .bbCap State.reset := by rfl

/-- Reset between two requests: R270. -/
theorem test_reset_event :
    (match step { st 3 [true, false] with inputs := [.reset] } with
      | .next t => (t.len, t.cells, t.bbN, t.responses) == (0#16, [], 3#16, [])
      | .fault _ => false
      | .refused _ => false) = true := by decide

/-! ## The assembler: the examples of 30_encoding.md R73 and the record of 95_test_vectors.md section 1.2 -/

theorem test_assemble_loadb : assembleText "BB.LOADB 0xA5".toList = some [[0x07#8, 0x00#8, 0x01#8, 0xA5#8]] := by
  decide +kernel

theorem test_assemble_pushbits : assembleText "BB.PUSHBITS 1 0".toList =
    some [[0x02#8, 0x01#8], [0x02#8, 0x00#8]] := by decide +kernel

/-- 93_implementation_defined.md G3: the patterns of 38.8977 and 77.0365. -/
theorem test_assemble_floats :
    binary32Magnitude 388977 4 = 0x421B973F ∧ binary32Magnitude 770365 4 = 0x429A12B0 ∧ binary32Magnitude 0 0 = 0 := by
  decide +kernel

/-! ## Witnesses: states and operands that meet the hypotheses of the statements -/

theorem witness_BbClearEmptiesTheBuffer : ([0x00#8] : List Byte) ≠ [] := by decide

/-- Lengths 0 and 2; the lowest and the highest reserved bit; one below the capacity and at it, capacity 0 and 65535. -/
theorem witness_BbPushAppendsOneBitBelowCapacity :
    ([] : List Byte).length ≠ 1 ∧ ([0x01#8, 0x00#8] : List Byte).length ≠ 1 ∧
    (0x02#8).extractLsb' 1 7 ≠ 0#7 ∧ (0x80#8).extractLsb' 1 7 ≠ 0#7 ∧
    (st 2 [true]).len.toNat < (st 2 [true]).bbN.toNat ∧ (st 65535 []).len.toNat < (st 65535 []).bbN.toNat ∧
    (st 2 [true, false]).len = (st 2 [true, false]).bbN ∧ (st 0 []).len = (st 0 []).bbN := by decide

/-- An empty buffer; a buffer of one bit; a full buffer. -/
theorem witness_BbPopRemovesTheLastBit :
    ([0x00#8] : List Byte) ≠ [] ∧ (st 3 []).len = 0#16 ∧
    ((st 3 [true]).Inv ∧ (st 3 [true]).len ≠ 0#16) ∧ ((st 1 [true]).Inv ∧ (st 1 [true]).len ≠ 0#16) :=
  ⟨by decide, by decide, ⟨st_inv (by decide), by decide⟩, ⟨st_inv (by decide), by decide⟩⟩

theorem witness_BbLenReturnsTheLength : ([0x00#8] : List Byte) ≠ [] := by decide

theorem witness_BbCapReturnsTheCapacity : ([0x00#8, 0x00#8] : List Byte) ≠ [] := by decide

/-- The length itself, the highest index, index 0 of an empty buffer; the last and the first index below the length. -/
theorem witness_BbGetReadsOnlyBelowTheLength :
    ([0x00#8] : List Byte).length ≠ 2 ∧ (st 3 [true, false]).len.toNat ≤ (2#16).toNat ∧
    (st 3 [true, false]).len.toNat ≤ (0xFFFF#16).toNat ∧ (st 3 []).len.toNat ≤ (0#16).toNat ∧
    ((st 3 [true, false]).Inv ∧ (1#16).toNat < (st 3 [true, false]).len.toNat) ∧
    ((st 3 [true, false]).Inv ∧ (0#16).toNat < (st 3 [true, false]).len.toNat) :=
  ⟨by decide, by decide, by decide, by decide, ⟨st_inv (by decide), by decide⟩, ⟨st_inv (by decide), by decide⟩⟩

/-- Counts 0 and 65535; a request too short for its count, and a count of one byte too many; one bit too few and exactly
enough; the first bit and the last of a byte, and the first cell after it. -/
theorem witness_BbLoadbReplacesTheContents :
    ([] : List Byte).length ≤ 65535 ∧ (List.replicate 65535 0#8).length ≤ 65535 ∧
    (∀ (kh kl : Byte) (ys : List Byte), [0x00#8] = kh :: kl :: ys → ys.length ≠ (kh ++ kl).toNat) ∧
    (∀ (kh kl : Byte) (ys : List Byte), [0x00#8, 0x01#8] = kh :: kl :: ys → ys.length ≠ (kh ++ kl).toNat) ∧
    (st 7 []).bbN.toNat < 8 * [0xA5#8].length ∧ 8 * [0xA5#8].length ≤ (st 8 []).bbN.toNat ∧
    (0 < [0xA5#8].length ∧ 0 < 8) ∧ (0 < [0xA5#8].length ∧ 7 < 8) ∧ 8 * [0xA5#8].length ≤ 8 := by
  refine ⟨by decide, ?_, ?_, ?_, by decide, by decide, by decide, by decide, by decide⟩
  · rw [List.length_replicate]
  · intro kh kl ys h
    simp at h
  · intro kh kl ys h
    injection h with h1 h2
    injection h2 with h2 h3
    subst h1 h2 h3
    decide

/-- The lowest and the highest reserved bit of the data field. -/
theorem witness_EncodeReturnsTheCodeword :
    ([0x05#8] : List Byte).length ≠ 2 ∧ (0x0800#16).extractLsb' 11 5 ≠ 0#5 ∧ (0x8000#16).extractLsb' 11 5 ≠ 0#5 := by
  decide

/-- 95_test_vectors.md section 2.3: a clean word, a flip of position 0, two flips. -/
theorem witness_DecodeReturnsDataAndStatus :
    ([] : List Byte).length ≠ 2 ∧ decodeWord 0xFFFF#16 = (0x7FF#11, .clean) ∧
    decodeWord 0x8000#16 = (0#11, .correctedSingleBit 0#4) ∧ decodeWord 0xC000#16 = (0#11, .uncorrectableMultiBit) := by
  decide +kernel

/-- An image of each valid status, one of the first that is not valid, and a length one short. -/
theorem witness_SerializeReturnsTheRecordBits :
    (List.replicate 60 0#8).length ≠ 61 ∧ (List.replicate 61 0#8).length = 61 ∧
    validStatus (List.replicate 61 0#8)[60] ∧ validStatus (List.replicate 61 1#8)[60] ∧
    ¬ validStatus (List.replicate 61 2#8)[60] := by
  simp [validStatus]

theorem witness_DeserializeChecksOnlyTheStatus :
    (List.replicate 62 0#8).length ≠ 61 ∧ (List.replicate 61 0#8).length = 61 ∧
    validStatus (List.replicate 61 0#8)[60] ∧ validStatus (List.replicate 61 1#8)[60] ∧
    ¬ validStatus (List.replicate 61 0xFF#8)[60] := by
  simp [validStatus]

theorem witness_FrameReturnsTheMessage :
    (List.replicate 60 0#8).length ≠ 61 ∧ (List.replicate 61 0#8).length = 61 ∧
    (validStatus (List.replicate 61 0#8)[60] ∧ (List.replicate 61 0#8)[60] = 0x00#8) ∧
    (validStatus (List.replicate 61 1#8)[60] ∧ (List.replicate 61 1#8)[60] = 0x01#8) ∧
    ¬ validStatus (List.replicate 61 2#8)[60] := by
  simp [validStatus]

/-- A Message of zeros but for its words 0 and 44. -/
def twoWords (w0 w44 : Word16) : List Byte :=
  packWords (w0 :: (List.replicate 43 0#16 ++ [w44]))

/-- Lengths 90 and 89; the first and the last block uncorrectable; a status byte of 0x02; status bytes 0x00 and 0x01. -/
theorem witness_UnframeReportsTheFirstFailure :
    (twoWords 0#16 0#16).length = 90 ∧ (List.replicate 89 0#8).length ≠ 90 ∧
    (decodeWord (blockWord (twoWords 0xC000#16 0#16) 0)).2 = .uncorrectableMultiBit ∧
    ((decodeWord (blockWord (twoWords 0#16 0xC000#16) 44)).2 = .uncorrectableMultiBit ∧
      ∀ k, k < 44 → (decodeWord (blockWord (twoWords 0#16 0xC000#16) k)).2 ≠ .uncorrectableMultiBit) ∧
    ((∀ j, j < 45 → (decodeWord (blockWord (twoWords 0#16 0xAA00#16) j)).2 ≠ .uncorrectableMultiBit) ∧
      bitsField 8 ((messageBits (twoWords 0#16 0xAA00#16)).drop 480) = 0x02#8) ∧
    ((∀ j, j < 45 → (decodeWord (blockWord (twoWords 0x8000#16 0x6900#16) j)).2 ≠ .uncorrectableMultiBit) ∧
      bitsField 8 ((messageBits (twoWords 0x8000#16 0x6900#16)).drop 480) = 0x01#8) ∧
    ((∀ j, j < 45 → (decodeWord (blockWord (twoWords 0#16 0#16) j)).2 ≠ .uncorrectableMultiBit) ∧
      bitsField 8 ((messageBits (twoWords 0#16 0#16)).drop 480) = 0x00#8) := by
  decide +kernel

theorem witness_StepRunsTheDecodedCommand :
    (sent (st 3 [true]) [0x03#8]).inputs = .request [0x03#8] :: [] ∧ decode [0x03#8] = .ok .bbPop :=
  ⟨rfl, by decide⟩

/-- Both ends of every reserved range. -/
theorem witness_ReservedOpcodesAreIllegal :
    (0x00#8).toNat = 0x00 ∧ (0x08 ≤ (0x08#8).toNat ∧ (0x08#8).toNat ≤ 0x0F) ∧
    (0x08 ≤ (0x0F#8).toNat ∧ (0x0F#8).toNat ≤ 0x0F) ∧ (0x12 ≤ (0x12#8).toNat ∧ (0x12#8).toNat ≤ 0x1F) ∧
    (0x12 ≤ (0x1F#8).toNat ∧ (0x1F#8).toNat ≤ 0x1F) ∧ (0x22 ≤ (0x22#8).toNat ∧ (0x22#8).toNat ≤ 0x2F) ∧
    (0x22 ≤ (0x2F#8).toNat ∧ (0x2F#8).toNat ≤ 0x2F) ∧ 0x32 ≤ (0x32#8).toNat ∧ 0x32 ≤ (0xFF#8).toNat := by decide

/-- A wrong length; a reserved bit of BB.PUSH; a reserved bit of ENCODE; right requests of both and of BB.LOADB. -/
theorem witness_WrongLengthsAndReservedBitsAreIllegal :
    Opcode.bbClear.format.requestLength [0x01#8, 0x00#8] ≠ some (1 + 1) ∧
    (byteAt [0x02#8] 0).extractLsb' 1 7 ≠ 0#7 ∧ (byteAt [0x08#8, 0x00#8] 0).extractLsb' 3 5 ≠ 0#5 ∧
    (Opcode.bbPush.format.requestLength [0x02#8, 0x01#8] = some (1 + 1) ∧ (byteAt [0x01#8] 0).extractLsb' 1 7 = 0#7) ∧
    (Opcode.encode.format.requestLength [0x10#8, 0x07#8, 0xFF#8] = some (1 + 2) ∧
      (byteAt [0x07#8, 0xFF#8] 0).extractLsb' 3 5 = 0#5) ∧
    Opcode.bbLoadb.format.requestLength [0x07#8, 0x00#8, 0x00#8] = some (1 + 2) := by decide

/-- The longest operand a count can carry is well-formed, and so is none. -/
theorem witness_DecodeOfEncodeIsTheInstruction :
    (Instr.bbLoadb (List.replicate 65535 0#8)).wellFormed = true ∧ (Instr.bbLoadb []).wellFormed = true ∧
    (Instr.encode 0x7FF#11).wellFormed = true := by
  refine ⟨?_, by decide, by decide⟩
  rw [Instr.wellFormed, List.length_replicate]
  decide

theorem witness_EncodeOfDecodeIsTheRequest : decode [0x10#8, 0x07#8, 0xFF#8] = .ok (.encode 0x7FF#11) := by decide

theorem witness_EveryRequestGetsOneResponse : (st 3 [true, false]).Inv := st_inv (by decide)

/-- A push to a full buffer is answered with 0x01. -/
theorem witness_ErrorResponsesChangeNoState :
    step (sent (st 1 [true]) [0x02#8, 0x01#8]) = .next (answered (st 1 [true]) [0x01#8]) ∧
    (answered (st 1 [true]) [0x01#8]).responses = (st 1 [true]).responses ++ [[0x01#8]] ∧ 0x01#8 ≠ 0x00#8 ∧
    step (sent (st 1 [true]) [0x04#8]) = .next (answered (st 1 [true]) [0x00#8, 0x00#8, 0x01#8]) :=
  ⟨rfl, rfl, by decide, rfl⟩

theorem witness_ResponsesHaveTheirStatusAndLength :
    exec .bbPop (st 3 []) = .next (answered (st 3 []) [0x02#8]) := rfl

theorem witness_EveryStepKeepsTheInvariants :
    (sent (st 3 []) [0x03#8]).Inv ∧ step (sent (st 3 []) [0x03#8]) = .next (answered (st 3 []) [0x02#8]) :=
  ⟨State.Inv.of_indices (by decide) (by decide), rfl⟩

theorem witness_ResetDropsTheRequestInProgress :
    step (sent (st 3 []) [0x03#8]) = .next (answered (st 3 []) [0x02#8]) := rfl

theorem witness_CapacityIsConstant :
    step (sent (st 3 []) [0x03#8]) = .next (answered (st 3 []) [0x02#8]) ∧ (st 0 []).bbN = 0#16 := ⟨rfl, rfl⟩

theorem witness_CodecCommandsIgnoreTheBuffer :
    outsideBitBuffer (.encode 0#11) = true ∧ outsideBitBuffer (.decode 0#16) = true ∧
    outsideBitBuffer (.serialize img) = true ∧ outsideBitBuffer (.deserialize img) = true ∧
    outsideBitBuffer (.frame img) = true ∧ outsideBitBuffer (.unframe msg) = true := by decide

/-- Two states of one buffer, one of which already holds a response. -/
theorem witness_CommandsAreDeterministic :
    sameBuffer (st 3 []) (answered (st 3 []) [0x00#8]) ∧
    step (sent (st 3 []) [0x03#8]) = .next (answered (st 3 []) [0x02#8]) := ⟨⟨rfl, rfl, rfl⟩, rfl⟩

theorem witness_PushAndPopAreInverse :
    ((st 3 [true, false]).Inv ∧ (st 3 [true, false]).len.toNat < (st 3 [true, false]).bbN.toNat) ∧
    ((st 1 [true]).Inv ∧ (st 1 [true]).len ≠ 0#16) :=
  ⟨⟨st_inv (by decide), by decide⟩, ⟨st_inv (by decide), by decide⟩⟩

theorem witness_CapacityBoundary :
    (st 0 []).len = (st 0 []).bbN ∧ (st 2 [true]).len.toNat < (st 2 [true]).bbN.toNat := by decide

theorem witness_LoadedBytesReadBackMostSignificantFirst :
    8 * [0xA5#8].length ≤ (st 8 []).bbN.toNat ∧ 0 < [0xA5#8].length ∧ 7 < 8 := by decide

theorem witness_NoStepGetsStuck :
    (sent (st 3 [true]) [0xFF#8]).Inv ∧ (sent (st 3 [true]) [0xFF#8]).hostWaits := by
  refine ⟨State.Inv.of_indices (by decide) (by decide), ?_⟩
  intro ev hev req
  obtain rfl : ev = .request [0xFF#8] := by simpa [sent, st] using hev
  simp

/-- A program of two requests: 95_test_vectors.md section 3.1, requests 1 and 2. -/
theorem witness_RunsAnswerRequestsInOrder :
    (sent (sent (st 3 [true]) [0x02#8, 0x01#8]) [0x01#8]).Inv ∧
    (sent (sent (st 3 [true]) [0x02#8, 0x01#8]) [0x01#8]).inputs =
      [[0x01#8], [0x02#8, 0x01#8]].map HostEvent.request ∧ 1 < [[0x01#8], [0x02#8, 0x01#8]].length :=
  ⟨State.Inv.of_indices (by decide) (by decide), rfl, by decide⟩

theorem witness_EarlyRequestsAreRefused :
    (State.withInputs (st 3 []) [.earlyRequest [0x01#8]]).inputs = .earlyRequest [0x01#8] :: [] := rfl

theorem witness_TheBlockWaitsForARequest : State.reset.inputs = [] := rfl

theorem witness_SyndromeAndOverallParity : 0 < 4 ∧ 3 < 4 := by decide

/-- The four rows of 41_codec.md R149: 95_test_vectors.md section 2.3. -/
theorem witness_DecodeClassification :
    (syndrome (fieldBits 0x53A3#16) = 0#4 ∧ overallParity (fieldBits 0x53A3#16) = false) ∧
    (syndrome (fieldBits 0x0001#16) = 15#4 ∧ overallParity (fieldBits 0x0001#16) = true) ∧
    (syndrome (fieldBits 0x8000#16) = 0#4 ∧ overallParity (fieldBits 0x8000#16) = true) ∧
    (syndrome (fieldBits 0xC000#16) = 1#4 ∧ overallParity (fieldBits 0xC000#16) = false) := by
  decide +kernel

theorem witness_UncorrectableDataIsAsReceived : (decodeWord 0xC000#16).2 = .uncorrectableMultiBit := by decide +kernel

theorem witness_SingleErrorsCorrectedDoubleErrorsDetected : 0 < 16 ∧ 15 < 16 ∧ 0 ≠ 15 := by decide

/-- Weight 3; weight 4 and no codeword; weight 4 and a codeword. -/
theorem witness_ResidualRiskOfManyErrors :
    (weight 0xE000#16 % 2 = 1 ∧ 3 ≤ weight 0xE000#16) ∧
    (weight 0x001E#16 % 2 = 0 ∧ 4 ≤ weight 0x001E#16 ∧ ∀ d, 0x001E#16 ≠ encodeData d) ∧
    (weight 0xF000#16 % 2 = 0 ∧ 4 ≤ weight 0xF000#16 ∧ 0xF000#16 = encodeData 0x400#11) := by
  refine ⟨by decide +kernel, ⟨by decide +kernel, by decide +kernel, fun d => ?_⟩, by decide +kernel⟩
  intro h
  have hb := congrArg fieldBits h
  rw [fieldBits_encodeData, placeData, fieldBits_data, show fieldBits 0x001E#16 =
    [false, false, false, false, false, false, false, false, false, false, false, true, true, true, true, false] by
      decide +kernel] at hb
  simp [dataPositions, setChecks, setParity, checkPositions, coveredBy, xorOver, posBit, lowPositions, List.range'] at hb
  obtain ⟨-, -, -, -, check4, d1, d2, d3, -, d4, d5, d6, d7, d8, d9, d10⟩ := hb
  simp [d1, d2, d3, d7, d8, d9, d10] at check4

theorem witness_MinimumDistanceFour : (0#11 : Data) ≠ 1#11 := by decide

theorem witness_RecordRoundTrip :
    (List.replicate 488 false).length = 488 ∧ validStatus (bitsField 8 ((List.replicate 488 false).drop 480)) :=
  ⟨by rw [List.length_replicate], .inl (by decide +kernel)⟩

theorem witness_OnlyTheStatusByteIsChecked : (List.replicate 488 true).length = 488 := by rw [List.length_replicate]

theorem witness_FrameEncodesTheGroupsInOrder : img.length = 61 ∧ (recordOfImage img).isSome = true := by decide +kernel

/-- All seven padding bits set, and none. -/
theorem witness_PaddingIsIgnoredOnUnframe :
    (List.replicate 44 0#16).length = 44 ∧ (0x07F#11 : Data).extractLsb' 7 4 = (0#11 : Data).extractLsb' 7 4 := by decide

theorem witness_UnframeOfFrameIsTheRecord :
    (List.replicate 61 1#8).length = 61 ∧ validStatus (List.replicate 61 1#8)[60] := by
  simp [validStatus]

/-- Position 0 of the first block and position 15 of the last. -/
theorem witness_OneFlipPerBlockIsTolerated :
    (positionMask 0 :: (List.replicate 43 0#16 ++ [positionMask 15])).length = 45 ∧
    ∀ e ∈ positionMask 0 :: (List.replicate 43 0#16 ++ [positionMask 15]),
      e = 0#16 ∨ ∃ p, p < 16 ∧ e = positionMask p := by
  refine ⟨by simp, fun e he => ?_⟩
  simp only [List.mem_cons, List.mem_append, List.mem_replicate, List.not_mem_nil, or_false] at he
  rcases he with rfl | ⟨-, rfl⟩ | rfl
  · exact .inr ⟨0, by decide, rfl⟩
  · exact .inl rfl
  · exact .inr ⟨15, by decide, rfl⟩

end Sys2Proof.Tests
end

