-- ==== Sys2Proof/Proofs/CodeDistance.lean ====
section
/-! PROOF. The minimum distance of the code (00_scope.md R3). An encoded word passes all checks, the checks are linear,
and a nonzero word that passes them all has at least four bits set. -/

namespace Sys2Proof.Machine

/-! ## Parities of positions -/

theorem xorOver_cons (c : List Bit) (p : Nat) (ps : List Nat) : xorOver c (p :: ps) = (posBit c p ^^ xorOver c ps) := by
  rw [xorOver, List.foldl_cons, Bool.xor_comm]
  exact List.foldl_hom (posBit c p ^^ ·) fun _ _ => Bool.xor_assoc _ _ _

theorem xorOver_congr {c c' : List Bit} {ps : List Nat} (h : ∀ i ∈ ps, posBit c i = posBit c' i) :
    xorOver c ps = xorOver c' ps :=
  List.foldl_ext _ _ _ fun acc i hi => by rw [h i hi]

/-- A parity of positions is the parity of the number of set bits among them. -/
theorem xorOver_eq_decide_odd (c : List Bit) (ps : List Nat) :
    xorOver c ps = decide ((ps.filter (posBit c)).length % 2 = 1) := by
  induction ps with
  | nil => rfl
  | cons p ps ih =>
    rw [xorOver_cons, ih]
    cases hp : posBit c p
    · simp [hp]
    · rcases Nat.mod_two_eq_zero_or_one (ps.filter (posBit c)).length with h | h <;> simp [hp, h, Nat.add_mod]

/-- Bit j of the syndrome is the parity of the positions whose index has bit j set (41_codec.md R147). -/
theorem syndrome_getLsbD (c : List Bit) {j : Nat} (hj : j < 4) :
    (syndrome c).getLsbD j = xorOver c (lowPositions.filter fun i => i.testBit j) := by
  have key : ∀ (ps : List Nat) (a : BitVec 4),
      (ps.foldl (fun acc i => if posBit c i then acc ^^^ BitVec.ofNat 4 i else acc) a).getLsbD j =
        (a.getLsbD j ^^ xorOver c (ps.filter fun i => i.testBit j)) := by
    intro ps
    induction ps with
    | nil => simp [xorOver]
    | cons p ps ih =>
      intro a
      rw [List.foldl_cons, ih]
      cases hp : posBit c p <;> cases ht : p.testBit j <;>
        simp [hp, ht, hj, xorOver_cons, BitVec.getLsbD_ofNat, -BitVec.getLsbD_eq_getElem]
  rw [syndrome, key, BitVec.getLsbD_zero, Bool.false_xor]

/-! ## The positions set in a word -/

/-- The positions of the set bits of a codeword, in order. -/
def setPositions (c : List Bit) : List Nat :=
  positions.filter (posBit c)

theorem setPositions_nodup (c : List Bit) : (setPositions c).Nodup :=
  List.nodup_range.filter _

theorem lt_of_mem_setPositions {c : List Bit} {p : Nat} (h : p ∈ setPositions c) : p < 16 :=
  List.mem_range.mp (List.mem_of_mem_filter h)

theorem weight_eq_length_setPositions (w : Word16) :
    Statements.weight w = (setPositions (fieldBits w)).length := by
  have hpos : fieldBits w = positions.map (posBit (fieldBits w)) :=
    List.map_congr_left fun p _ => (posBit_fieldBits w p).symm
  rw [Statements.weight, hpos, List.count_eq_countP, List.countP_map, List.countP_eq_length_filter, ← hpos]
  simp [setPositions, Function.comp_def]

/-- The overall parity is the parity of the weight. -/
theorem overallParity_eq_decide_odd_weight (w : Word16) :
    overallParity (fieldBits w) = decide (Statements.weight w % 2 = 1) := by
  rw [weight_eq_length_setPositions]
  exact xorOver_eq_decide_odd _ _

/-- The syndrome is the sum of the positions set; position 0 adds nothing to it. -/
theorem syndrome_eq_foldl_setPositions (c : List Bit) :
    syndrome c = (setPositions c).foldl (fun acc i => acc ^^^ BitVec.ofNat 4 i) 0#4 := by
  rw [setPositions, List.foldl_filter, show positions = 0 :: lowPositions from rfl, List.foldl_cons]
  simp [syndrome]

/-- Only the zero word has no bit set. -/
theorem eq_zero_of_weight_eq_zero {w : Word16} (h : Statements.weight w = 0) : w = 0#16 := by
  rw [weight_eq_length_setPositions, List.length_eq_zero_iff, setPositions, List.filter_eq_nil_iff] at h
  refine BitVec.eq_of_getMsbD_eq fun p hp => ?_
  simpa [posBit_fieldBits] using h p (List.mem_range.mpr hp)

/-- Two set bits give a syndrome, their positions being different. -/
theorem syndrome_ne_zero_of_weight_eq_two {w : Word16} (h : Statements.weight w = 2) :
    syndrome (fieldBits w) ≠ 0#4 := by
  rw [weight_eq_length_setPositions, List.length_eq_two] at h
  obtain ⟨p, p', hpp⟩ := h
  have hne : p ≠ p' := by simpa [hpp] using setPositions_nodup (fieldBits w)
  have hlt : ∀ q ∈ [p, p'], q < 16 := fun q hq => lt_of_mem_setPositions (hpp ▸ hq)
  have hp : p < 16 := hlt p (by simp)
  have hp' : p' < 16 := hlt p' (by simp)
  rw [syndrome_eq_foldl_setPositions, hpp]
  simp only [List.foldl_cons, List.foldl_nil, BitVec.zero_xor, ne_eq, BitVec.xor_eq_zero_iff]
  intro hs
  exact hne (by simpa [Nat.mod_eq_of_lt hp, Nat.mod_eq_of_lt hp'] using congrArg BitVec.toNat hs)

/-- A nonzero word that passes all checks has at least four bits set: an odd number of them fails the overall parity,
and two of them fail the syndrome. -/
theorem four_le_weight_of_checks_pass {w : Word16} (hs : syndrome (fieldBits w) = 0#4)
    (hq : overallParity (fieldBits w) = false) (hw : w ≠ 0#16) : 4 ≤ Statements.weight w := by
  have heven : Statements.weight w % 2 ≠ 1 := by simpa [overallParity_eq_decide_odd_weight] using hq
  have hzero : Statements.weight w ≠ 0 := fun h => hw (eq_zero_of_weight_eq_zero h)
  have htwo : Statements.weight w ≠ 2 := fun h => syndrome_ne_zero_of_weight_eq_two h hs
  omega

/-! ## The positions the encoder sets -/

theorem posBit_set_of_ne (c : List Bit) (b : Bit) {p i : Nat} (h : p ≠ i) : posBit (c.set p b) i = posBit c i := by
  simp [posBit, List.getD_eq_getElem?_getD, h]

theorem posBit_set_self {c : List Bit} (b : Bit) {p : Nat} (h : p < c.length) : posBit (c.set p b) p = b := by
  simp [posBit, List.getD_eq_getElem?_getD, h]

theorem xorOver_set_of_not_mem (c : List Bit) (b : Bit) {p : Nat} {ps : List Nat} (h : p ∉ ps) :
    xorOver (c.set p b) ps = xorOver c ps :=
  xorOver_congr fun _ hi => posBit_set_of_ne c b (ne_of_mem_of_not_mem hi h).symm

/-- No check reads a check position, so the order in which the checks are set does not matter (41_codec.md R143). -/
theorem setChecks_eq (c : List Bit) :
    setChecks c =
      (((c.set 1 (xorOver c (coveredBy 1 dataPositions))).set 2 (xorOver c (coveredBy 2 dataPositions))).set
        4 (xorOver c (coveredBy 4 dataPositions))).set 8 (xorOver c (coveredBy 8 dataPositions)) := by
  simp (disch := decide) only [setChecks, checkPositions, List.foldl_cons, List.foldl_nil, xorOver_set_of_not_mem]

theorem posBit_setChecks_of_not_mem (c : List Bit) {i : Nat} (h : i ∉ checkPositions) :
    posBit (setChecks c) i = posBit c i := by
  simp only [checkPositions, List.mem_cons, List.not_mem_nil, or_false, not_or] at h
  obtain ⟨h1, h2, h4, h8⟩ := h
  rw [setChecks_eq, posBit_set_of_ne _ _ (Ne.symm h8), posBit_set_of_ne _ _ (Ne.symm h4),
    posBit_set_of_ne _ _ (Ne.symm h2), posBit_set_of_ne _ _ (Ne.symm h1)]

theorem posBit_setChecks_two_pow {c : List Bit} (hc : c.length = 16) {j : Nat} (hj : j < 4) :
    posBit (setChecks c) (2 ^ j) = xorOver c (coveredBy (2 ^ j) dataPositions) := by
  rw [setChecks_eq]
  interval_cases j <;> simp [posBit_set_of_ne, posBit_set_self, hc]

theorem posBit_setParity_of_ne (c : List Bit) {i : Nat} (h : i ≠ 0) : posBit (setParity c) i = posBit c i :=
  posBit_set_of_ne c _ h.symm

/-- The data bits in their positions (41_codec.md R141). -/
theorem placeData_eq (d : Data) :
    placeData d = [false, false, false, d.getMsbD 0, false, d.getMsbD 1, d.getMsbD 2, d.getMsbD 3, false, d.getMsbD 4,
      d.getMsbD 5, d.getMsbD 6, d.getMsbD 7, d.getMsbD 8, d.getMsbD 9, d.getMsbD 10] := rfl

theorem map_posBit_placeData (d : Data) : dataPositions.map (posBit (placeData d)) = fieldBits d := by
  rw [placeData_eq, fieldBits_data]
  rfl

/-- The data positions of an encoded word hold the data as they were placed. -/
theorem posBit_encodeData_of_mem {i : Nat} (h : i ∈ dataPositions) (d : Data) :
    posBit (fieldBits (encodeData d)) i = posBit (placeData d) i := by
  have hdata : ∀ i ∈ dataPositions, i ≠ 0 ∧ i ∉ checkPositions := by decide
  obtain ⟨h0, hcheck⟩ := hdata i h
  rw [fieldBits_encodeData, posBit_setParity_of_ne _ h0, posBit_setChecks_of_not_mem _ hcheck]

/-! ## An encoded word passes all checks and holds its data -/

/-- The positions that bit j of the syndrome looks at are check position 2^j and the data positions it covers. -/
theorem filter_testBit_lowPositions {j : Nat} (hj : j < 4) :
    (lowPositions.filter fun i => i.testBit j) = 2 ^ j :: coveredBy (2 ^ j) dataPositions := by
  interval_cases j <;> decide

theorem syndrome_setParity (c : List Bit) : syndrome (setParity c) = syndrome c := by
  refine BitVec.eq_of_getLsbD_eq fun j hj => ?_
  rw [syndrome_getLsbD _ hj, syndrome_getLsbD _ hj]
  exact xorOver_set_of_not_mem _ _ (by simp)

/-- Set checks agree with the data positions they cover. -/
theorem syndrome_setChecks {c : List Bit} (hc : c.length = 16) : syndrome (setChecks c) = 0#4 := by
  refine BitVec.eq_of_getLsbD_eq fun j hj => ?_
  have hcovered : xorOver (setChecks c) (coveredBy (2 ^ j) dataPositions) =
      xorOver c (coveredBy (2 ^ j) dataPositions) := by
    have hdata : ∀ i ∈ dataPositions, i ∉ checkPositions := by decide
    exact xorOver_congr fun i hi => posBit_setChecks_of_not_mem c (hdata i (List.mem_of_mem_filter hi))
  rw [syndrome_getLsbD _ hj, filter_testBit_lowPositions hj, xorOver_cons, posBit_setChecks_two_pow hc hj, hcovered,
    Bool.xor_self, BitVec.getLsbD_zero]

theorem overallParity_setParity {c : List Bit} (hc : 0 < c.length) : overallParity (setParity c) = false := by
  have hlow : 0 ∉ lowPositions := by decide
  rw [overallParity, show positions = 0 :: lowPositions from rfl, xorOver_cons, setParity, posBit_set_self _ hc,
    xorOver_set_of_not_mem _ _ hlow, Bool.xor_self]

theorem syndrome_encodeData (d : Data) : syndrome (fieldBits (encodeData d)) = 0#4 := by
  rw [fieldBits_encodeData, syndrome_setParity, syndrome_setChecks (placeData_length d)]

theorem overallParity_encodeData (d : Data) : overallParity (fieldBits (encodeData d)) = false := by
  rw [fieldBits_encodeData]
  exact overallParity_setParity (by simp)

theorem extractData_encodeData (d : Data) : extractData (fieldBits (encodeData d)) = d := by
  rw [extractData, List.map_congr_left fun i hi => posBit_encodeData_of_mem hi d, map_posBit_placeData,
    bitsField_fieldBits]

theorem encodeData_injective : Function.Injective encodeData := fun a b h => by
  rw [← extractData_encodeData a, h, extractData_encodeData]

end Sys2Proof.Machine

namespace Sys2Proof.Statements

open Sys2Proof.Machine

/-- Settles O46: the sum of two codewords passes all checks, since each does and the checks are linear, and it is not
zero, since Encode is injective. -/
theorem minimumDistanceFour : Obligations.MinimumDistanceFour := by
  intro a b hab
  have hs : syndrome (fieldBits (encodeData a ^^^ encodeData b)) = 0#4 := by
    rw [syndrome_xor, syndrome_encodeData, syndrome_encodeData, BitVec.xor_self]
  have hq : overallParity (fieldBits (encodeData a ^^^ encodeData b)) = false := by
    rw [overallParity_xor, overallParity_encodeData, overallParity_encodeData, Bool.xor_self]
  exact four_le_weight_of_checks_pass hs hq fun h => hab (encodeData_injective (BitVec.xor_eq_zero_iff.mp h))

end Sys2Proof.Statements
end

section
/-! PROOF. The state of the block (10_state.md): the reset state has the invariants (R21, R22), no step changes the
capacity (R23), and the codec, record and framer commands do not reach the BitBuffer (R29). -/

namespace Sys2Proof.Machine

/-! ## The reset state -/

/-- No cell is listed at reset and the length is 0 (70_reset_and_hazards.md R270), so the empty store is in range. -/
theorem State.reset_inv : State.reset.Inv :=
  State.Inv.of_indices (Nat.zero_le _) rfl

/-! ## The capacity -/

/-- Every way a step can go on keeps the capacity (10_state.md R23). -/
theorem step_bbN {s t : State} (h : step s = .next t) : t.bbN = s.bbN := by
  obtain ⟨-, rfl⟩ | ⟨_, _, _, -, -, hexec⟩ | ⟨_, _, _, -, -, rfl⟩ | ⟨_, -, rfl⟩ | ⟨_, _, -, rfl⟩ := step_next_cases h
  case inl => rfl
  case inr.inl =>
    obtain ⟨hcap, -, -⟩ := exec_next_shape hexec
    simpa using hcap
  all_goals simp

theorem exec_bbCap (s : State) : exec .bbCap s = .next (s.respond .ok (bytes16 s.bbN)) := rfl

/-- With no capacity the length is never below it, so a push fails. -/
theorem exec_bbPush_of_bbN_eq_zero {s : State} (b : Bit) (h : s.bbN = 0#16) :
    exec (.bbPush b) s = .next (s.raise .capacityExceeded) :=
  execBbPush_of_le b (by simp [h])

/-! ## The commands outside the BitBuffer family -/

theorem exec_encode (d : Data) (s : State) : exec (.encode d) s = .next (s.respond .ok (bytes16 (encodeData d))) := rfl

theorem exec_decode (w : Word16) (s : State) :
    exec (.decode w) s =
      .next (s.respond .ok
        (bytes16 ((decodeWord w).1.setWidth 16) ++ [(decodeWord w).2.code, (decodeWord w).2.position])) := rfl

/-- SERIALIZE of an image whose status byte is not valid. -/
theorem exec_serialize_of_none {img : List Byte} (h : recordOfImage img = none) (s : State) :
    exec (.serialize img) s = .next (s.raise .illegalOperand) := by
  rw [exec, execSerialize, h]

/-- SERIALIZE of the image of a record. -/
theorem exec_serialize_of_some {img : List Byte} {r : TelemetryRecord} (h : recordOfImage img = some r) (s : State) :
    exec (.serialize img) s = .next (s.respond .ok (recordImage r)) := by
  rw [exec, execSerialize, h, recordImage]

/-- DESERIALIZE of a layout whose status byte is not valid. -/
theorem exec_deserialize_of_none {img : List Byte} (h : deserializeBits (bytesBits img) = none) (s : State) :
    exec (.deserialize img) s = .next (s.raise .malformedRecord) := by
  rw [exec, execDeserialize, h]

/-- DESERIALIZE of the layout of a record. -/
theorem exec_deserialize_of_some {img : List Byte} {r : TelemetryRecord} (h : deserializeBits (bytesBits img) = some r)
    (s : State) : exec (.deserialize img) s = .next (s.respond .ok (recordImage r)) := by
  rw [exec, execDeserialize, h]

/-- FRAME of an image whose status byte is not valid. -/
theorem exec_frame_of_none {img : List Byte} (h : recordOfImage img = none) (s : State) :
    exec (.frame img) s = .next (s.raise .illegalOperand) := by
  rw [exec, execFrame, h]

/-- FRAME of the image of a record. -/
theorem exec_frame_of_some {img : List Byte} {r : TelemetryRecord} (h : recordOfImage img = some r) (s : State) :
    exec (.frame img) s = .next (s.respond .ok (frameRecord r)) := by
  rw [exec, execFrame, h]

/-- UNFRAME of a Message with an uncorrectable block. -/
theorem exec_unframe_of_unrecoverableChannel {msg : List Byte} {j : Nat}
    (h : unframeMessage msg = .unrecoverableChannel j) (s : State) :
    exec (.unframe msg) s = .next (s.respond .unrecoverableChannel [BitVec.ofNat 8 j]) := by
  rw [exec, execUnframe, h]

/-- UNFRAME of a Message that carries no record. -/
theorem exec_unframe_of_invalidRecord {msg : List Byte} (h : unframeMessage msg = .invalidRecord) (s : State) :
    exec (.unframe msg) s = .next (s.raise .invalidRecord) := by
  rw [exec, execUnframe, h]

/-- UNFRAME of a Message that carries a record. -/
theorem exec_unframe_of_record {msg : List Byte} {r : TelemetryRecord} {ac : Bool}
    (h : unframeMessage msg = .record r ac) (s : State) :
    exec (.unframe msg) s = .next (s.respond .ok (recordImage r ++ [flagByte ac])) := by
  rw [exec, execUnframe, h]

/-- The status and the result bytes of a codec, record or framer command are fixed by its operand alone (10_state.md
R29): which way such a command goes depends only on whether its operand carries a record. -/
theorem exec_eq_respond_of_outsideBitBuffer {i : Instr} (h : Statements.outsideBitBuffer i = true) :
    ∃ st bytes, ∀ s : State, exec i s = .next (s.respond st bytes) := by
  cases i with
  | bbClear | bbPush | bbPop | bbLen | bbCap | bbGet | bbLoadb => cases h
  | encode d => exact ⟨_, _, exec_encode d⟩
  | decode w => exact ⟨_, _, exec_decode w⟩
  | serialize img =>
    cases hr : recordOfImage img with
    | none => exact ⟨_, _, exec_serialize_of_none hr⟩
    | some r => exact ⟨_, _, exec_serialize_of_some hr⟩
  | deserialize img =>
    cases hr : deserializeBits (bytesBits img) with
    | none => exact ⟨_, _, exec_deserialize_of_none hr⟩
    | some r => exact ⟨_, _, exec_deserialize_of_some hr⟩
  | frame img =>
    cases hr : recordOfImage img with
    | none => exact ⟨_, _, exec_frame_of_none hr⟩
    | some r => exact ⟨_, _, exec_frame_of_some hr⟩
  | unframe msg =>
    cases hr : unframeMessage msg with
    | record r ac => exact ⟨_, _, exec_unframe_of_record hr⟩
    | unrecoverableChannel j => exact ⟨_, _, exec_unframe_of_unrecoverableChannel hr⟩
    | invalidRecord => exact ⟨_, _, exec_unframe_of_invalidRecord hr⟩

end Sys2Proof.Machine

namespace Sys2Proof.Statements

open Sys2Proof.Machine

/-- A response changes nothing but the responses. -/
theorem respond_eq_answered (s : State) (st : RspStatus) (bytes : List Byte) :
    s.respond st bytes = answered s (st.code :: bytes) := rfl

/-- An error is a response of its status byte alone. -/
theorem raise_eq_answered (s : State) (st : RspStatus) : s.raise st = answered s [st.code] := rfl

/-- Settles O24: the reset state lists no cell and has length 0. -/
theorem resetMeetsTheInvariants : Obligations.ResetMeetsTheInvariants :=
  State.reset_inv

/-- Settles O28, by the ways a step can go on; a push to a buffer of capacity 0 is a push at the capacity. -/
theorem capacityIsConstant : Obligations.CapacityIsConstant := by
  refine ⟨fun s t h => step_bbN h, fun s => ?_, fun s b h => ?_⟩
  · rw [exec_bbCap, respond_eq_answered]
    rfl
  · rw [exec_bbPush_of_bbN_eq_zero b h, raise_eq_answered]
    rfl

/-- Settles O29: the response is the status and the result bytes that the operand alone fixes. -/
theorem codecCommandsIgnoreTheBuffer : Obligations.CodecCommandsIgnoreTheBuffer := by
  intro i hi
  obtain ⟨st, bytes, hexec⟩ := exec_eq_respond_of_outsideBitBuffer hi
  exact ⟨st.code :: bytes, fun s => by rw [hexec, respond_eq_answered]⟩

end Sys2Proof.Statements
end

section
/-! PROOF. What a request does (20_memory.md R48, R55): its effect is a function of the BitBuffer and the request alone,
and it keeps the invariants of 10_state.md R21 and R22. -/

namespace Sys2Proof.Machine

open Host Sys2Proof.Statements

/-! ## The invariants under each change of the buffer -/

/-- The invariants are about the buffer and its capacity only. -/
theorem State.Inv.of_sameBuffer {s t : State} (hs : s.Inv) (hst : sameBuffer s t) : t.Inv := by
  obtain ⟨hcap, hlen, hcells⟩ := hst
  refine ⟨?_, ?_, ?_⟩
  · rw [hcap, hlen]
    exact hs.lenInRange
  · rw [hcells]
    exact hs.cellsCanonical
  · rw [hcells, hlen]
    exact hs.setBelowLen

/-- Setting the cell at the length and counting it keeps the invariants. -/
theorem State.Inv.append {s : State} (hs : s.Inv) (b : Bit) (hlt : s.len.toNat < s.bbN.toNat) :
    ((s.withCells (s.cells.write s.len.toNat b)).withLen (s.len + 1#16)).Inv := by
  have hlen : (s.len + 1#16).toNat = s.len.toNat + 1 := by bv_omega
  refine ⟨?_, Cells.write_wf hs.cellsCanonical _ b, fun i => ?_⟩
  · simp only [State.withLen_len, State.withLen_bbN, State.withCells_bbN, hlen]
    exact hlt
  · simp only [State.withLen_cells, State.withCells_cells, State.withLen_len, Cells.read_write, hlen]
    split
    · exact iff_of_true (Option.some_ne_none b) (by omega)
    · rw [hs.setBelowLen i]
      omega

/-- Unsetting the last set cell and discounting it keeps the invariants. -/
theorem State.Inv.dropLast {s : State} (hs : s.Inv) (h0 : s.len ≠ 0#16) :
    ((s.withCells (s.cells.unset (s.len.toNat - 1))).withLen (s.len - 1#16)).Inv := by
  have hlen : (s.len - 1#16).toNat = s.len.toNat - 1 := by bv_omega
  have hpos : 0 < s.len.toNat := by bv_omega
  refine ⟨?_, Cells.unset_wf hs.cellsCanonical _, fun i => ?_⟩
  · simp only [State.withLen_len, State.withLen_bbN, State.withCells_bbN, hlen]
    exact Nat.le_trans (Nat.sub_le _ _) hs.lenInRange
  · simp only [State.withLen_cells, State.withCells_cells, State.withLen_len, Cells.read_unset, hlen]
    split
    · exact iff_of_false (fun hnone => hnone rfl) (by omega)
    · rw [hs.setBelowLen i]
      omega

/-- Any sequence of bits that fits, held from cell 0 on, meets the invariants, whatever the buffer held before. -/
theorem State.inv_of_ofBits (s : State) {bs : List Bit} (hfit : bs.length ≤ s.bbN.toNat) :
    ((s.withCells (Cells.ofBits bs)).withLen (BitVec.ofNat 16 bs.length)).Inv := by
  have hlen : (BitVec.ofNat 16 bs.length).toNat = bs.length := by bv_omega
  apply State.Inv.of_indices
  · simpa only [State.withLen_len, State.withLen_bbN, State.withCells_bbN, hlen] using hfit
  · simp only [State.withLen_cells, State.withCells_cells, State.withLen_len, Cells.map_fst_ofBits, hlen]

/-! ## Effects -/

/-- All that a request which is answered does: the buffer it leaves, and its response. -/
structure Effect where
  cells : Cells
  len : Word16
  status : RspStatus
  bytes : List Byte

/-- The state that an effect leaves: the host's events and the earlier responses stay. -/
def Effect.apply (e : Effect) (s : State) : State :=
  ((s.withCells e.cells).withLen e.len).respond e.status e.bytes

/-- The effect of a response that leaves the buffer as it is. -/
def Effect.answer (s : State) (st : RspStatus) (bytes : List Byte) : Effect where
  cells := s.cells
  len := s.len
  status := st
  bytes := bytes

@[simp] theorem Effect.apply_inputs (e : Effect) (s : State) : (e.apply s).inputs = s.inputs := rfl

@[simp] theorem Effect.apply_responses (e : Effect) (s : State) :
    (e.apply s).responses = s.responses ++ [e.status.code :: e.bytes] := rfl

/-- One effect leaves one buffer. -/
theorem Effect.apply_sameBuffer (e : Effect) {s s' : State} (h : sameBuffer s s') :
    sameBuffer (e.apply s) (e.apply s') := by
  obtain ⟨hcap, -, -⟩ := h
  exact ⟨hcap, rfl, rfl⟩

/-- In every state of the same buffer, the effect of a response is that response. -/
theorem Effect.answer_apply {s s' : State} (h : sameBuffer s s') (st : RspStatus) (bytes : List Byte) :
    (Effect.answer s st bytes).apply s' = s'.respond st bytes := by
  obtain ⟨-, hlen, hcells⟩ := h
  exact State.eq_of_fields rfl hlen.symm hcells.symm rfl rfl

/-- How a transaction can end: with one effect in every state of the same buffer, whatever those states' ports hold, an
effect that keeps the invariants; or at an UNSET cell, which the invariants rule out. -/
inductive Performs (f : State → Outcome State Fault Refusal) (s : State) : Prop where
  | effect (e : Effect) (acts : ∀ s', sameBuffer s s' → f s' = .next (e.apply s'))
      (keeps : s.Inv → (e.apply s).Inv)
  | unsetCell (i : Nat) (faults : f s = .fault (.unsetCell i)) (broken : ¬ s.Inv)

/-- A transaction that only responds. -/
theorem Performs.of_respond {f : State → Outcome State Fault Refusal} {s : State} (st : RspStatus) (bytes : List Byte)
    (h : ∀ s', sameBuffer s s' → f s' = .next (s'.respond st bytes)) : Performs f s :=
  .effect (.answer s st bytes) (fun s' hs' => by rw [h s' hs', Effect.answer_apply hs'])
    fun hs => hs.of_sameBuffer ⟨rfl, rfl, rfl⟩

/-- Under the invariants a transaction has an effect. -/
theorem Performs.goesOn {f : State → Outcome State Fault Refusal} {s : State} (hf : Performs f s) (hs : s.Inv) :
    ∃ e : Effect, f s = .next (e.apply s) := by
  cases hf with
  | effect e acts keeps => exact ⟨e, acts s ⟨rfl, rfl, rfl⟩⟩
  | unsetCell i faults broken => exact absurd hs broken

/-- A transaction that goes on does so in every state of the same buffer, by the same effect. -/
theorem Performs.deterministic {f : State → Outcome State Fault Refusal} {s t : State} (hf : Performs f s)
    (h : f s = .next t) :
    ∃ e : Effect, t = e.apply s ∧ ∀ s', sameBuffer s s' → f s' = .next (e.apply s') := by
  cases hf with
  | effect e acts keeps =>
    rw [acts s ⟨rfl, rfl, rfl⟩] at h
    cases h
    exact ⟨e, rfl, acts⟩
  | unsetCell i faults broken => simp [faults] at h

/-- A transaction that goes on keeps the invariants. -/
theorem Performs.keeps_inv {f : State → Outcome State Fault Refusal} {s t : State} (hf : Performs f s) (hs : s.Inv)
    (h : f s = .next t) : t.Inv := by
  cases hf with
  | effect e acts keeps =>
    rw [acts s ⟨rfl, rfl, rfl⟩] at h
    cases h
    exact keeps hs
  | unsetCell i faults broken => exact absurd hs broken

/-! ## The commands of the BitBuffer -/

theorem execBbClear_performs (s : State) : Performs execBbClear s :=
  .effect ⟨Cells.allUnset, 0#16, .ok, []⟩ (fun _ _ => rfl) fun _ =>
    (s.inv_of_ofBits (bs := []) (Nat.zero_le _)).of_sameBuffer ⟨rfl, rfl, rfl⟩

theorem execBbPush_performs (b : Bit) (s : State) : Performs (execBbPush b) s := by
  rcases Nat.lt_or_ge s.len.toNat s.bbN.toNat with hlt | hle
  · refine .effect ⟨s.cells.write s.len.toNat b, s.len + 1#16, .ok, []⟩ (fun s' hs' => ?_)
      fun hs => (hs.append b hlt).of_sameBuffer ⟨rfl, rfl, rfl⟩
    obtain ⟨hcap, hlen, hcells⟩ := hs'
    rw [execBbPush_of_lt b (by rwa [hcap, hlen]), hcells, hlen]
    rfl
  · exact .of_respond .capacityExceeded [] fun s' ⟨hcap, hlen, _⟩ => execBbPush_of_le b (by rwa [hcap, hlen])

theorem execBbPop_performs (s : State) : Performs execBbPop s := by
  by_cases h0 : s.len = 0#16
  · exact .of_respond .empty [] fun s' ⟨_, hlen, _⟩ => execBbPop_of_empty (hlen.trans h0)
  · cases hb : s.cells.read (s.len.toNat - 1) with
    | none =>
      refine .unsetCell (s.len.toNat - 1) (by simp only [execBbPop, if_neg h0, hb]) fun hs => ?_
      exact (hs.setBelowLen _).2 (by bv_omega) hb
    | some b =>
      refine .effect ⟨s.cells.unset (s.len.toNat - 1), s.len - 1#16, .ok, [flagByte b]⟩ (fun s' hs' => ?_)
        fun hs => (hs.dropLast h0).of_sameBuffer ⟨rfl, rfl, rfl⟩
      obtain ⟨-, hlen, hcells⟩ := hs'
      rw [execBbPop_of_read (by rwa [hlen]) (by rwa [hlen, hcells]), hcells, hlen]
      rfl

theorem execBbLen_performs (s : State) : Performs execBbLen s :=
  .of_respond .ok (bytes16 s.len) fun s' ⟨_, hlen, _⟩ => by rw [execBbLen, hlen]

theorem execBbCap_performs (s : State) : Performs execBbCap s :=
  .of_respond .ok (bytes16 s.bbN) fun s' ⟨hcap, _, _⟩ => by rw [execBbCap, hcap]

theorem execBbGet_performs (i : Word16) (s : State) : Performs (execBbGet i) s := by
  rcases Nat.lt_or_ge i.toNat s.len.toNat with hlt | hle
  · cases hb : s.cells.read i.toNat with
    | none =>
      exact .unsetCell i.toNat (by simp only [execBbGet, if_neg (Nat.not_le.2 hlt), hb])
        fun hs => (hs.setBelowLen _).2 hlt hb
    | some b =>
      exact .of_respond .ok [flagByte b] fun s' ⟨_, hlen, hcells⟩ =>
        execBbGet_of_read (by rwa [hlen]) (by rwa [hcells])
  · exact .of_respond .indexOutOfRange [] fun s' ⟨_, hlen, _⟩ => execBbGet_of_le (by rwa [hlen])

theorem execBbLoadb_performs (xs : List Byte) (s : State) : Performs (execBbLoadb xs) s := by
  rcases Nat.lt_or_ge s.bbN.toNat (8 * xs.length) with hlt | hle
  · exact .of_respond .capacityExceeded [] fun s' ⟨hcap, _, _⟩ => execBbLoadb_of_lt (by rwa [hcap])
  · refine .effect ⟨Cells.ofBits (bytesBits xs), BitVec.ofNat 16 (8 * xs.length), .ok, []⟩
      (fun s' ⟨hcap, _, _⟩ => execBbLoadb_of_le (by rwa [hcap])) fun _ => ?_
    have hinv := s.inv_of_ofBits (bs := bytesBits xs) (by rwa [bytesBits_length])
    rw [bytesBits_length] at hinv
    exact hinv.of_sameBuffer ⟨rfl, rfl, rfl⟩

/-! ## Every command and every request -/

theorem exec_performs_of_outsideBitBuffer {i : Instr} (h : outsideBitBuffer i = true) (s : State) :
    Performs (exec i) s := by
  obtain ⟨st, bytes, hexec⟩ := exec_eq_respond_of_outsideBitBuffer h
  exact .of_respond st bytes fun s' _ => hexec s'

/-- What a command does to the buffer and what it answers is a function of the buffer and its operands (20_memory.md
R55), and a command stops only where the invariants are broken. -/
theorem exec_performs (i : Instr) (s : State) : Performs (exec i) s := by
  cases i with
  | bbClear => exact execBbClear_performs s
  | bbPush b => exact execBbPush_performs b s
  | bbPop => exact execBbPop_performs s
  | bbLen => exact execBbLen_performs s
  | bbCap => exact execBbCap_performs s
  | bbGet i => exact execBbGet_performs i s
  | bbLoadb xs => exact execBbLoadb_performs xs s
  | encode _ | decode _ | serialize _ | deserialize _ | frame _ | unframe _ =>
    exact exec_performs_of_outsideBitBuffer rfl s

theorem performRequest_of_ok {req : List Byte} {i : Instr} (hd : decode req = .ok i) : performRequest req = exec i := by
  funext s
  simp only [performRequest, hd]

theorem performRequest_of_error {req : List Byte} {e : IllegalRequest} (hd : decode req = .error e) (s : State) :
    performRequest req s = .next (s.respond (illegalStatus e) []) := by
  simp only [performRequest, hd]
  rfl

/-- The same of every request, a command or not: decoding does not look at the state. -/
theorem performRequest_performs (req : List Byte) (s : State) : Performs (performRequest req) s := by
  cases hd : decode req with
  | ok i =>
    rw [performRequest_of_ok hd]
    exact exec_performs i s
  | error e => exact .of_respond (illegalStatus e) [] fun s' _ => performRequest_of_error hd s'

/-! ## Every step -/

theorem step_of_request {s : State} {req : List Byte} {evs : List HostEvent} (hin : s.inputs = .request req :: evs) :
    step s = performRequest req (s.withInputs evs) := by
  simp only [step, hin]

/-- From a state with the invariants a request is taken, answered once, and the invariants are kept. -/
theorem step_request_of_inv {s : State} {req : List Byte} {evs : List HostEvent} (hs : s.Inv)
    (hin : s.inputs = .request req :: evs) :
    ∃ t rsp, step s = .next t ∧ t.Inv ∧ t.inputs = evs ∧ t.responses = s.responses ++ [rsp] := by
  have hs' : (s.withInputs evs).Inv := hs.of_sameBuffer ⟨rfl, rfl, rfl⟩
  have hperf := performRequest_performs req (s.withInputs evs)
  obtain ⟨e, he⟩ := hperf.goesOn hs'
  exact ⟨_, _, (step_of_request hin).trans he, hperf.keeps_inv hs' he, rfl, rfl⟩

end Sys2Proof.Machine

namespace Sys2Proof.Statements

open Sys2Proof.Machine

/-- The host's next request is performed in the state that it is sent to. -/
theorem step_sent (s : State) (req : List Byte) : step (sent s req) = performRequest req s :=
  step_of_request rfl

/-- Settles O30: the effect of a request is one for all states of the same buffer. -/
theorem commandsAreDeterministic : Obligations.CommandsAreDeterministic := by
  intro s s' t req hss' ht
  rw [step_sent] at ht
  obtain ⟨e, rfl, acts⟩ := (performRequest_performs req s).deterministic ht
  exact ⟨e.apply s', e.status.code :: e.bytes, (step_sent s' req).trans (acts s' hss'), e.apply_sameBuffer hss',
    e.apply_responses s, e.apply_responses s'⟩

end Sys2Proof.Statements
end

section
/-! PROOF. Runs (20_memory.md R50, 70_reset_and_hazards.md R282): a program of requests is carried out one request at a
time, each answered before the next is taken. -/

namespace Sys2Proof.Machine

open Host

/-! ## Runs of the machine -/

/-- A run of one more step begins with that step. -/
theorem run_succ_of_step {M : Core} {s t : M.State} (h : M.step s = .next t) (k : Nat) :
    M.run (k + 1) s = M.run k t := by
  rw [Core.run, h]

/-- A run of one more step ends with that step. -/
theorem run_succ_eq_step {M : Core} {k : Nat} {s u : M.State} (h : M.run k s = .next u) :
    M.run (k + 1) s = M.step u := by
  induction k generalizing s with
  | zero =>
    cases h
    cases hstep : M.step u <;> simp only [Core.run, hstep]
  | succ k ih =>
    cases hstep : M.step s with
    | next t =>
      rw [run_succ_of_step hstep] at h ⊢
      exact ih h
    | fault r => simp [Core.run, hstep] at h
    | refused r => simp [Core.run, hstep] at h

/-- Where a program of requests stands after k steps: k requests are taken and answered, the others wait, and the
invariants hold. -/
theorem run_requests {reqs : List (List Byte)} {s : State} (hs : s.Inv) (hin : s.inputs = reqs.map HostEvent.request) :
    ∃ rsps : List (List Byte), rsps.length = reqs.length ∧ ∀ k, k ≤ reqs.length →
      ∃ u : State, core.run k s = .next u ∧ u.Inv ∧ u.inputs = (reqs.drop k).map HostEvent.request ∧
        u.responses = s.responses ++ rsps.take k := by
  induction reqs generalizing s with
  | nil =>
    refine ⟨[], rfl, fun k hk => ⟨s, ?_, hs, ?_, by simp⟩⟩
    · rw [Nat.le_zero.1 hk]
      rfl
    · simpa using hin
  | cons req reqs ih =>
    obtain ⟨t, rsp, hstep, ht, htin, htrsp⟩ := step_request_of_inv hs hin
    obtain ⟨rsps, hlen, hrun⟩ := ih ht htin
    refine ⟨rsp :: rsps, by simp [hlen], fun k hk => ?_⟩
    cases k with
    | zero => exact ⟨s, rfl, hs, hin, by simp⟩
    | succ k =>
      obtain ⟨u, hu, huinv, huin, hursp⟩ := hrun k (by simpa using hk)
      exact ⟨u, (run_succ_of_step hstep k).trans hu, huinv, huin, by simp [hursp, htrsp]⟩

end Sys2Proof.Machine

namespace Sys2Proof.Statements

open Sys2Proof.Machine

/-- Settles O35: each state of the run stands between two requests, as `run_requests` says by induction on them; the
state after one more step is the step from the state before it, and holds one more response. -/
theorem runsAnswerRequestsInOrder : Obligations.RunsAnswerRequestsInOrder := by
  intro reqs s hs hin
  obtain ⟨rsps, hlen, hrun⟩ := run_requests hs hin
  obtain ⟨t, ht, htinv, htin, htrsp⟩ := hrun reqs.length le_rfl
  refine ⟨t, rsps, ht, by simpa using htin, htinv, hlen, by simpa [← hlen] using htrsp, fun k hk => ?_⟩
  obtain ⟨u, hu, -, huin, hursp⟩ := hrun k hk.le
  obtain ⟨v, hv, -, -, hvrsp⟩ := hrun (k + 1) hk
  have hkr : k < rsps.length := by rwa [hlen]
  refine ⟨u, v, rsps[k], hu, (run_succ_eq_step hu).symm.trans hv, hv, List.getElem?_eq_getElem hkr, hursp, ?_, ?_⟩
  · rw [hvrsp, hursp, List.append_assoc, List.take_append_getElem hkr]
  · rw [huin, List.drop_eq_getElem_cons hk, List.map_cons, List.head?_cons]

end Sys2Proof.Statements
end

section
/-! PROOF. The encoding of requests (30_encoding.md sections 1 to 4): which byte strings are commands, decode and encode
as inverses, and the answer to a request that is no command. -/

namespace Sys2Proof

open Sys2Proof.Machine

/-! ## The operand fields, written back -/

/-- A value is its high bits before its low bits. -/
theorem high_append_low {m n : Nat} (v : BitVec (m + n)) :
    v.extractLsb' n m ++ v.extractLsb' 0 n = v :=
  (BitVec.extractLsb'_append_extractLsb'_eq_extractLsb' (Nat.zero_add n).symm).trans BitVec.extractLsb'_eq_self

/-- A byte whose reserved bits are 0 is the bit byte of its operand (30_encoding.md R64). -/
theorem bit_of_operandBit {op x : Byte} {b : Bit} (h : operandBit [op, x] = some b) : 0#7 ++ BitVec.ofBool b = x := by
  have hx : byteAt [op, x] 1 = x := rfl
  rw [operandBit, hx, Option.ite_none_right_eq_some] at h
  obtain ⟨hreserved, hbit⟩ := h
  cases hbit
  have hlow : x.extractLsb' 0 1 = BitVec.ofBool (x.getLsbD 0) := by
    refine BitVec.eq_of_getLsbD_eq fun i hi => ?_
    obtain rfl : i = 0 := by omega
    simp
  rw [← hreserved, ← hlow]
  exact high_append_low (m := 7) (n := 1) x

/-- Two bytes whose reserved bits are 0 are the 16-bit field of their data (30_encoding.md R64). -/
theorem data_of_operandData {op a b : Byte} {d : Data} (h : operandData [op, a, b] = some d) :
    0#5 ++ d = (a ++ b : Word16) := by
  have hab : word16At [op, a, b] 1 = a ++ b := rfl
  rw [operandData, hab, Option.ite_none_right_eq_some] at h
  obtain ⟨hreserved, hdata⟩ := h
  cases hdata
  rw [← hreserved]
  exact high_append_low (m := 5) (n := 11) (a ++ b : Word16)

/-! ## The operand bytes each format takes (30_encoding.md R63) -/

theorem requestLength_fNone_iff {op : Byte} {ops : List Byte} :
    Format.fNone.requestLength (op :: ops) = some (ops.length + 1) ↔ ops = [] := by
  simp [Format.requestLength]

theorem requestLength_fBit_iff {op : Byte} {ops : List Byte} :
    Format.fBit.requestLength (op :: ops) = some (ops.length + 1) ↔ ∃ x, ops = [x] := by
  simp [Format.requestLength, ← List.length_eq_one_iff, eq_comm]

theorem requestLength_fU16_iff {op : Byte} {ops : List Byte} :
    Format.fU16.requestLength (op :: ops) = some (ops.length + 1) ↔ ∃ a b, ops = [a, b] := by
  simp [Format.requestLength, ← List.length_eq_two, eq_comm]

/-- A count, and as many bytes as it says. -/
theorem requestLength_fBytes_iff {op : Byte} {ops : List Byte} :
    Format.fBytes.requestLength (op :: ops) = some (ops.length + 1) ↔
      ∃ (kh kl : Byte) (xs : List Byte), ops = kh :: kl :: xs ∧ xs.length = (kh ++ kl : Word16).toNat := by
  match ops with
  | [] | [_] => simp [Format.requestLength]
  | kh :: kl :: xs =>
    have hk : operandWord16 (op :: kh :: kl :: xs) = kh ++ kl := rfl
    simp [Format.requestLength, hk, Nat.add_comm 3, eq_comm]

theorem requestLength_fRec_iff {op : Byte} {ops : List Byte} :
    Format.fRec.requestLength (op :: ops) = some (ops.length + 1) ↔ ops.length = Config.recordBytes := by
  simp [Format.requestLength, Nat.add_comm 1, eq_comm]

theorem requestLength_fMsg_iff {op : Byte} {ops : List Byte} :
    Format.fMsg.requestLength (op :: ops) = some (ops.length + 1) ↔ ops.length = Config.messageBytes := by
  simp [Format.requestLength, Nat.add_comm 1, eq_comm]

/-! ## Decoding what encode writes -/

/-- The request of a well-formed instruction has the length its format fixes. -/
theorem requestLength_encode {i : Instr} (h : i.wellFormed = true) :
    i.opcode.format.requestLength (encode i) = some (encode i).length := by
  cases i with
  | bbClear => exact Laws.RequestLength.bbClear h
  | bbPush b => exact Laws.RequestLength.bbPush b h
  | bbPop => exact Laws.RequestLength.bbPop h
  | bbLen => exact Laws.RequestLength.bbLen h
  | bbCap => exact Laws.RequestLength.bbCap h
  | bbGet i => exact Laws.RequestLength.bbGet i h
  | bbLoadb xs => exact Laws.RequestLength.bbLoadb xs h
  | encode d => exact Laws.RequestLength.encode d h
  | decode w => exact Laws.RequestLength.decode w h
  | serialize img => exact Laws.RequestLength.serialize img h
  | deserialize img => exact Laws.RequestLength.deserialize img h
  | frame img => exact Laws.RequestLength.frame img h
  | unframe msg => exact Laws.RequestLength.unframe msg h

/-- The operand fields read back from an instruction's request; no reserved bit is set there. -/
theorem instr_encode (i : Instr) : i.opcode.instr (encode i) = some i := by
  cases i with
  | bbPush b => exact congrArg (Option.map Instr.bbPush) (operandBit_bit _ b)
  | bbGet i => exact congrArg (some ∘ Instr.bbGet) (append_bytes16 i)
  | encode d => exact congrArg (Option.map Instr.encode) (operandData_data _ d)
  | decode w => exact congrArg (some ∘ Instr.decode) (append_bytes16 w)
  | bbClear | bbPop | bbLen | bbCap | bbLoadb | serialize | deserialize | frame | unframe => rfl

theorem decode_of_instr_eq_some {o : Opcode} {ops : List Byte} {i : Instr}
    (hl : o.format.requestLength (o.byte :: ops) = some (ops.length + 1)) (hi : o.instr (o.byte :: ops) = some i) :
    decode (o.byte :: ops) = .ok i := by
  rw [decode_byte_cons, if_pos hl, hi]

theorem decode_encode {i : Instr} (h : i.wellFormed = true) : decode (encode i) = .ok i :=
  decode_of_instr_eq_some (requestLength_encode h) (instr_encode i)

/-! ## Encoding what decode reads -/

/-- The instruction made from operand bytes of the right length is well-formed and keeps every one of them. -/
theorem operandBytes_of_instr {o : Opcode} {ops : List Byte} {i : Instr}
    (hl : o.format.requestLength (o.byte :: ops) = some (ops.length + 1)) (hi : o.instr (o.byte :: ops) = some i) :
    i.wellFormed = true ∧ i.operandBytes = ops := by
  cases o with
  | bbClear | bbPop | bbLen | bbCap =>
    cases hi
    exact ⟨rfl, (requestLength_fNone_iff.1 hl).symm⟩
  | bbPush =>
    obtain ⟨x, rfl⟩ := requestLength_fBit_iff.1 hl
    obtain ⟨b, hb, rfl⟩ := Option.map_eq_some_iff.1 hi
    exact ⟨rfl, congrArg ([·]) (bit_of_operandBit hb)⟩
  | bbGet | decode =>
    obtain ⟨a, b, rfl⟩ := requestLength_fU16_iff.1 hl
    cases hi
    exact ⟨rfl, bytes16_append a b⟩
  | encode =>
    obtain ⟨a, b, rfl⟩ := requestLength_fU16_iff.1 hl
    obtain ⟨d, hd, rfl⟩ := Option.map_eq_some_iff.1 hi
    exact ⟨rfl, (congrArg bytes16 (data_of_operandData hd)).trans (bytes16_append a b)⟩
  | bbLoadb =>
    obtain ⟨kh, kl, xs, rfl, hxs⟩ := requestLength_fBytes_iff.1 hl
    obtain rfl : Instr.bbLoadb xs = i := Option.some.inj hi
    have hk : BitVec.ofNat 16 xs.length = kh ++ kl := by rw [hxs, BitVec.ofNat_toNat, BitVec.setWidth_eq]
    have hcount : xs.length ≤ 65535 := by
      have := (kh ++ kl : Word16).isLt
      omega
    exact ⟨decide_eq_true hcount, by rw [Instr.operandBytes, hk, bytes16_append]; rfl⟩
  | serialize | deserialize | frame =>
    cases hi
    exact ⟨decide_eq_true (requestLength_fRec_iff.1 hl), rfl⟩
  | unframe =>
    cases hi
    exact ⟨decide_eq_true (requestLength_fMsg_iff.1 hl), rfl⟩

theorem encode_of_decode {req : List Byte} {i : Instr} (h : decode req = .ok i) :
    i.wellFormed = true ∧ encode i = req := by
  obtain ⟨o, ops, rfl, hl, hi⟩ := decode_eq_ok h
  obtain ⟨hwf, hops⟩ := operandBytes_of_instr hl hi
  exact ⟨hwf, by rw [encode, Opcode.instr_opcode hi, hops]⟩

/-! ## Requests that are no command (30_encoding.md R66 to R68) -/

/-- A byte that is the byte of no opcode selects none. -/
theorem Opcode.ofByte_eq_none {op : Byte} (h : ∀ o : Opcode, o.byte ≠ op) : Opcode.ofByte op = none :=
  Option.eq_none_iff_forall_ne_some.2 fun o ho => h o (Opcode.byte_of_ofByte ho)

theorem decode_of_length_ne {o : Opcode} {ops : List Byte}
    (h : o.format.requestLength (o.byte :: ops) ≠ some (ops.length + 1)) :
    decode (o.byte :: ops) = .error .illegalOperand := by
  rw [decode_byte_cons, if_neg h]

/-- A reserved operand bit is illegal whatever the length: a wrong length has the same answer. -/
theorem decode_of_instr_eq_none {o : Opcode} {ops : List Byte} (h : o.instr (o.byte :: ops) = none) :
    decode (o.byte :: ops) = .error .illegalOperand := by
  rw [decode_byte_cons, h, ite_self]

/-- The five reserved bits of ENCODE's operand are the high bits of its first byte. -/
theorem reserved_of_word (a b : Byte) : (a ++ b : Word16).extractLsb' 11 5 = a.extractLsb' 3 5 :=
  BitVec.extractLsb'_append_eq_of_le (by decide)

/-- Only BB.PUSH and ENCODE have reserved operand bits (30_encoding.md R68). -/
theorem Opcode.instr_isSome_iff (o : Opcode) (ops : List Byte) :
    (o.instr (o.byte :: ops)).isSome ↔
      (o = .bbPush → (byteAt ops 0).extractLsb' 1 7 = 0#7) ∧ (o = .encode → (byteAt ops 0).extractLsb' 3 5 = 0#5) := by
  cases o with
  | bbPush =>
    have hx : byteAt (Opcode.bbPush.byte :: ops) 1 = byteAt ops 0 := rfl
    simp [Opcode.instr, operandBit, hx]
  | encode =>
    have hw : word16At (Opcode.encode.byte :: ops) 1 = byteAt ops 0 ++ byteAt ops 1 := rfl
    simp [Opcode.instr, operandData, hw, reserved_of_word]
  | bbClear | bbPop | bbLen | bbCap | bbGet | bbLoadb | decode | serialize | deserialize | frame | unframe =>
    simp [Opcode.instr]

end Sys2Proof

namespace Sys2Proof.Statements

open Sys2Proof.Machine

/-- The answer to a request that is no command: its status byte alone. -/
theorem step_sent_of_decode_error {req : List Byte} {e : IllegalRequest} (h : decode req = .error e) (s : State) :
    step (sent s req) = .next (answered s [(illegalStatus e).code]) := by
  rw [step_sent, performRequest_of_error h, respond_eq_answered]

/-- Settles O17: the request has the length of its format, and its operand fields read back. -/
theorem decodeOfEncodeIsTheInstruction : Obligations.DecodeOfEncodeIsTheInstruction :=
  fun _ h => decode_encode h

/-- Settles O18, opcode by opcode: the format fixes how many operand bytes there are, and the instruction keeps each. -/
theorem encodeOfDecodeIsTheRequest : Obligations.EncodeOfDecodeIsTheRequest :=
  fun _ _ h => encode_of_decode h

/-- Settles O16: a listed opcode fails to decode exactly by its length or by a reserved bit, and only BB.PUSH and ENCODE
have such bits. -/
theorem wrongLengthsAndReservedBitsAreIllegal : Obligations.WrongLengthsAndReservedBitsAreIllegal := by
  intro s o ops
  rw [Nat.add_comm]
  have hreserved (h : ¬ (o.instr (o.byte :: ops)).isSome) :
      step (sent s (o.byte :: ops)) = .next (answered s [0x07#8]) :=
    step_sent_of_decode_error (decode_of_instr_eq_none (Option.not_isSome_iff_eq_none.1 h)) s
  rw [Opcode.instr_isSome_iff] at hreserved
  refine ⟨fun hl => step_sent_of_decode_error (decode_of_length_ne hl) s,
    fun ho hx => hreserved fun ⟨hpush, _⟩ => hx (hpush ho),
    fun ho hx => hreserved fun ⟨_, hencode⟩ => hx (hencode ho), fun hl hpush hencode => ?_⟩
  obtain ⟨i, hi⟩ := Option.isSome_iff_exists.1 ((Opcode.instr_isSome_iff o ops).2 ⟨hpush, hencode⟩)
  exact ⟨i, Opcode.instr_opcode hi, decode_of_instr_eq_some hl hi⟩

/-- Settles O14: the event is taken before the command is performed. -/
theorem stepRunsTheDecodedCommand : Obligations.StepRunsTheDecodedCommand :=
  fun _ _ _ _ hin hd => step_of_decode_ok hin hd

/-- Settles O15: no listed opcode byte lies in a reserved range. -/
theorem reservedOpcodesAreIllegal : Obligations.ReservedOpcodesAreIllegal := by
  refine fun s => ⟨step_sent_of_decode_error (e := .illegalOpcode) rfl s, fun op ops hop => ?_⟩
  refine step_sent_of_decode_error (decode_reserved ops (Opcode.ofByte_eq_none fun o ho => ?_)) s
  subst ho
  cases o <;> simp [Opcode.byte] at hop

/-- Settles O19: each request is the encoding of the command beside it. -/
theorem exampleRequestsDecode : Obligations.ExampleRequestsDecode :=
  ⟨decode_encode (i := .bbClear) rfl, decode_encode (i := .bbPush true) rfl, decode_encode (i := .bbPop) rfl,
    decode_encode (i := .bbLen) rfl, decode_encode (i := .bbCap) rfl, decode_encode (i := .bbGet 2#16) rfl,
    decode_encode (i := .bbLoadb [0xA5#8]) rfl, decode_encode (i := .encode 0x5A3#11) rfl,
    decode_encode (i := .decode 0x53A3#16) rfl⟩

end Sys2Proof.Statements
end

section
/-! PROOF. Responses (30_encoding.md R62, R69, R70) and the pseudo-instructions (R74). -/

namespace Sys2Proof.Machine

open Host Sys2Proof.Statements

/-! ## Statuses -/

theorem RspStatus.code_toNat_le (st : RspStatus) : st.code.toNat ≤ 0x08 := by
  cases st <;> decide

/-- A command that goes on with a response is answered as that response says. -/
theorem answersOf_of_respond {i : Instr} {s t u : State} {st : RspStatus} {bytes : List Byte}
    (hexec : exec i s = .next (u.respond st bytes)) (hu : u.responses = s.responses)
    (hmem : (st.code, bytes.length) ∈ answersOf i) (h : exec i s = .next t) :
    ∃ (st : RspStatus) (bytes : List Byte), (st.code, bytes.length) ∈ answersOf i ∧
      t.responses = s.responses ++ [st.code :: bytes] := by
  cases hexec.symm.trans h
  exact ⟨st, bytes, hmem, by rw [State.respond_responses, hu]⟩

/-- The status of each response of a command is one of the command's, with the result length of that status
(30_encoding.md R69, R70): the operand and the buffer decide which of the command's answers it is. -/
theorem exec_answersOf {i : Instr} {s t : State} (h : exec i s = .next t) :
    ∃ (st : RspStatus) (bytes : List Byte), (st.code, bytes.length) ∈ answersOf i ∧
      t.responses = s.responses ++ [st.code :: bytes] := by
  cases i with
  | bbClear => exact answersOf_of_respond (bytes := []) rfl rfl (.head _) h
  | bbPush b =>
    rcases Nat.lt_or_ge s.len.toNat s.bbN.toNat with hlt | hle
    · exact answersOf_of_respond (execBbPush_of_lt b hlt) rfl (.head _) h
    · exact answersOf_of_respond (execBbPush_of_le b hle) rfl (.tail _ (.head _)) h
  | bbPop =>
    by_cases h0 : s.len = 0#16
    · exact answersOf_of_respond (execBbPop_of_empty h0) rfl (.tail _ (.head _)) h
    · cases hb : s.cells.read (s.len.toNat - 1) with
      | none => simp [exec, execBbPop, h0, hb] at h
      | some b => exact answersOf_of_respond (execBbPop_of_read h0 hb) rfl (.head _) h
  | bbLen => exact answersOf_of_respond (bytes := bytes16 s.len) rfl rfl (.head _) h
  | bbCap => exact answersOf_of_respond (exec_bbCap s) rfl (.head _) h
  | bbGet i =>
    rcases Nat.lt_or_ge i.toNat s.len.toNat with hlt | hle
    · cases hb : s.cells.read i.toNat with
      | none => simp [exec, execBbGet, Nat.not_le.2 hlt, hb] at h
      | some b => exact answersOf_of_respond (execBbGet_of_read hlt hb) rfl (.head _) h
    · exact answersOf_of_respond (execBbGet_of_le hle) rfl (.tail _ (.head _)) h
  | bbLoadb xs =>
    rcases Nat.lt_or_ge s.bbN.toNat (8 * xs.length) with hlt | hle
    · exact answersOf_of_respond (execBbLoadb_of_lt hlt) rfl (.tail _ (.head _)) h
    · exact answersOf_of_respond (execBbLoadb_of_le hle) rfl (.head _) h
  | encode d => exact answersOf_of_respond (exec_encode d s) rfl (.head _) h
  | decode w => exact answersOf_of_respond (exec_decode w s) rfl (.head _) h
  | serialize img =>
    cases hr : recordOfImage img with
    | none => exact answersOf_of_respond (exec_serialize_of_none hr s) rfl (.tail _ (.head _)) h
    | some r => exact answersOf_of_respond (exec_serialize_of_some hr s) rfl (by simp [answersOf, RspStatus.code]) h
  | deserialize img =>
    cases hr : deserializeBits (bytesBits img) with
    | none => exact answersOf_of_respond (exec_deserialize_of_none hr s) rfl (.tail _ (.head _)) h
    | some r => exact answersOf_of_respond (exec_deserialize_of_some hr s) rfl (by simp [answersOf, RspStatus.code]) h
  | frame img =>
    cases hr : recordOfImage img with
    | none => exact answersOf_of_respond (exec_frame_of_none hr s) rfl (.tail _ (.head _)) h
    | some r => exact answersOf_of_respond (exec_frame_of_some hr s) rfl (by simp [answersOf, RspStatus.code]) h
  | unframe msg =>
    cases hr : unframeMessage msg with
    | record r ac =>
      exact answersOf_of_respond (exec_unframe_of_record hr s) rfl (by simp [answersOf, RspStatus.code]) h
    | unrecoverableChannel j =>
      exact answersOf_of_respond (exec_unframe_of_unrecoverableChannel hr s) rfl (.tail _ (.head _)) h
    | invalidRecord =>
      exact answersOf_of_respond (exec_unframe_of_invalidRecord hr s) rfl (.tail _ (.tail _ (.head _))) h

end Sys2Proof.Machine

namespace Sys2Proof.Statements

open Sys2Proof.Machine

/-- Settles O20: the request has an effect in any state with the invariants, and an effect is one response. -/
theorem everyRequestGetsOneResponse : Obligations.EveryRequestGetsOneResponse := by
  intro s req hs
  obtain ⟨e, he⟩ := (performRequest_performs req s).goesOn hs
  exact ⟨e.apply s, e.status.code, e.bytes, (step_sent s req).trans he, e.apply_responses s, e.status.code_toNat_le,
    e.apply_inputs s⟩

/-- Settles O22, command by command; that the host's events stay holds of every command. -/
theorem responsesHaveTheirStatusAndLength : Obligations.ResponsesHaveTheirStatusAndLength := by
  intro i s t h
  obtain ⟨st, bytes, hst, hrsp⟩ := exec_answersOf h
  obtain ⟨-, hin, -⟩ := exec_next_shape h
  exact ⟨st.code, bytes.length, bytes, hst, rfl, hrsp, hin, st.code_toNat_le⟩

/-- A request carries a bit as a response does. -/
theorem flagByte_eq_bitByte (b : Bit) : flagByte b = bitByte b :=
  flagByte_eq b

/-- Settles O55: a load of no bytes fits every capacity and leaves no cell set. -/
theorem pseudoInstructionsExpand : Obligations.PseudoInstructionsExpand := by
  refine ⟨rfl, fun bs => ?_, by decide, fun s => execBbLoadb_of_le (Nat.zero_le _)⟩
  rw [assemble, List.map_eq_flatMap]
  simp only [flagByte_eq_bitByte, assemble]

end Sys2Proof.Statements
end

section
/-! PROOF. The BitBuffer commands (40_bitbuffer.md R100 to R110): what each request runs, what its command does to the
buffer, and that every step keeps the invariants. -/

namespace Sys2Proof.Machine

/-! ## The invariants under every step (R107) -/

/-- A reset leaves the empty buffer, which is in range at every capacity. -/
theorem State.resetBlock_inv (s : State) : s.resetBlock.Inv :=
  State.Inv.of_indices (Nat.zero_le _) rfl

/-- Every way a step can go on keeps the invariants. -/
theorem step_keeps_inv {s t : State} (hs : s.Inv) (h : step s = .next t) : t.Inv := by
  have taken (evs : List HostEvent) : (s.withInputs evs).Inv := hs.of_sameBuffer ⟨rfl, rfl, rfl⟩
  obtain ⟨-, rfl⟩ | ⟨_, evs, i, -, -, hexec⟩ | ⟨_, evs, _, -, -, rfl⟩ | ⟨evs, -, rfl⟩ | ⟨_, evs, -, rfl⟩ :=
    step_next_cases h
  case inl => exact hs
  case inr.inl => exact (exec_performs i _).keeps_inv (taken evs) hexec
  case inr.inr.inl => exact (taken evs).of_sameBuffer ⟨rfl, rfl, rfl⟩
  all_goals exact State.resetBlock_inv _

/-! ## The last cell -/

/-- Unsetting a cell undoes the write that set it. -/
theorem Cells.unset_write {m : Cells} (hm : m.wf) {i : Nat} (hi : m.read i = none) (b : Bit) :
    (m.write i b).unset i = m := by
  refine Cells.eq_of_read (Cells.unset_wf (Cells.write_wf hm i b) i) hm fun k => ?_
  rw [Cells.read_unset, Cells.read_write]
  by_cases hk : k = i
  · rw [if_pos hk, hk, hi]
  · rw [if_neg hk, if_neg hk]

/-- Writing back the bit a cell held undoes its unsetting. -/
theorem Cells.write_unset {m : Cells} (hm : m.wf) {i : Nat} {b : Bit} (hi : m.read i = some b) :
    (m.unset i).write i b = m := by
  refine Cells.eq_of_read (Cells.write_wf (Cells.unset_wf hm i) i b) hm fun k => ?_
  rw [Cells.read_write, Cells.read_unset]
  by_cases hk : k = i
  · rw [if_pos hk, hk, hi]
  · rw [if_neg hk, if_neg hk]

/-- A length below the capacity does not wrap when a bit is counted. -/
theorem toNat_len_add_one {s : State} (h : s.len.toNat < s.bbN.toNat) : (s.len + 1#16).toNat = s.len.toNat + 1 := by
  bv_omega

/-- A length above 0 does not wrap when a bit is discounted. -/
theorem toNat_len_sub_one {s : State} (h : s.len ≠ 0#16) : (s.len - 1#16).toNat = s.len.toNat - 1 := by
  bv_omega

/-- The last cell of a buffer that is not empty is set (R102). -/
theorem State.Inv.read_last {s : State} (hs : s.Inv) (h : s.len ≠ 0#16) :
    ∃ b, s.cells.read (s.len.toNat - 1) = some b :=
  hs.read_isSome (by bv_omega)

/-! ## The cells of a load (R106) -/

/-- Cell 8j + k of loaded bytes is bit 7 - k of byte j. -/
theorem Cells.read_ofBits_bytesBits {xs : List Byte} {j k : Nat} (hj : j < xs.length) (hk : k < 8) :
    (Cells.ofBits (bytesBits xs)).read (8 * j + k) = some (xs[j].getLsbD (7 - k)) := by
  rw [Cells.read_ofBits, bytesBits_getElem? xs j k hk, List.getElem?_eq_getElem hj, Option.map_some]

/-- The cells after the last loaded bit are UNSET. -/
theorem Cells.read_ofBits_bytesBits_eq_none {xs : List Byte} {i : Nat} (hi : 8 * xs.length ≤ i) :
    (Cells.ofBits (bytesBits xs)).read i = none := by
  rw [Cells.read_ofBits, List.getElem?_eq_none (by rwa [bytesBits_length])]

/-- The length of a load that fits does not wrap. -/
theorem toNat_loadLength {s : State} {xs : List Byte} (h : 8 * xs.length ≤ s.bbN.toNat) :
    (BitVec.ofNat 16 (8 * xs.length)).toNat = 8 * xs.length := by
  bv_omega

end Sys2Proof.Machine

namespace Sys2Proof.Statements

open Sys2Proof.Machine

/-! ## Requests -/

/-- The request of a well-formed instruction runs it. -/
theorem step_sent_encode {i : Instr} (h : i.wellFormed = true) (s : State) : step (sent s (encode i)) = exec i s := by
  rw [step_sent, performRequest_of_ok (decode_encode h)]

/-- A request whose length is not the one its format fixes is ILLEGAL_OPERAND. -/
theorem step_sent_of_length_ne {o : Opcode} {ops : List Byte}
    (h : o.format.requestLength (o.byte :: ops) ≠ some (ops.length + 1)) (s : State) :
    step (sent s (o.byte :: ops)) = .next (answered s [0x07#8]) :=
  step_sent_of_decode_error (decode_of_length_ne h) s

/-- A command of format F-NONE takes no operand byte. -/
theorem step_sent_of_fNone {o : Opcode} (ho : o.format = .fNone) {ops : List Byte} (h : ops ≠ []) (s : State) :
    step (sent s (o.byte :: ops)) = .next (answered s [0x07#8]) :=
  step_sent_of_length_ne (fun hl => h (requestLength_fNone_iff.1 (ho ▸ hl))) s

/-! ## The obligations -/

/-- Settles O23, by the ways a step can go on: each leaves the buffer as it was, empties it, or is one command on it. -/
theorem everyStepKeepsTheInvariants : Obligations.EveryStepKeepsTheInvariants :=
  fun _ _ hs h => step_keeps_inv hs h

/-- Settles O2: the length is the capacity, or it is below and the cell at it is written. -/
theorem bbPushAppendsOneBitBelowCapacity : Obligations.BbPushAppendsOneBitBelowCapacity := by
  intro s
  refine ⟨fun b => ?_, fun ops hops => ?_, fun x hx => ?_, fun b hlt => ?_, fun b hfull => ?_⟩
  · rw [← flagByte_eq_bitByte]
    exact step_sent_encode (i := .bbPush b) rfl s
  · refine step_sent_of_length_ne (o := .bbPush) (fun hl => hops ?_) s
    exact List.length_eq_one_iff.2 (requestLength_fBit_iff.1 hl)
  · exact (wrongLengthsAndReservedBitsAreIllegal s .bbPush [x]).2.1 rfl hx
  · exact ⟨_, execBbPush_of_lt b hlt, Cells.read_write _ _ b, toNat_len_add_one hlt, rfl, rfl, rfl⟩
  · exact execBbPush_of_le b (by rw [hfull])

/-- Settles O3: under the invariants the last cell of a buffer that is not empty holds the bit that leaves it. -/
theorem bbPopRemovesTheLastBit : Obligations.BbPopRemovesTheLastBit := by
  intro s
  refine ⟨step_sent_encode (i := .bbPop) rfl s, fun ops hops => step_sent_of_fNone (o := .bbPop) rfl hops s,
    execBbPop_of_empty, fun hs h0 => ?_⟩
  obtain ⟨b, hb⟩ := hs.read_last h0
  refine ⟨b, _, hb, execBbPop_of_read h0 hb, Cells.read_unset _ _, toNat_len_sub_one h0, rfl, rfl, ?_⟩
  rw [← flagByte_eq_bitByte]
  rfl

/-- Settles O6: under the invariants a cell is set exactly below the length. -/
theorem bbGetReadsOnlyBelowTheLength : Obligations.BbGetReadsOnlyBelowTheLength := by
  intro s i
  refine ⟨step_sent_encode (i := .bbGet i) rfl s, fun ops hops => ?_, execBbGet_of_le, fun hs hlt => ?_⟩
  · refine step_sent_of_length_ne (o := .bbGet) (fun hl => hops ?_) s
    exact List.length_eq_two.2 (requestLength_fU16_iff.1 hl)
  · obtain ⟨b, hb⟩ := hs.read_isSome hlt
    refine ⟨b, hb, ?_⟩
    rw [← flagByte_eq_bitByte]
    exact execBbGet_of_read hlt hb

/-- Settles O7: the cells of a load that fits are the bits of its bytes in order, and those alone. -/
theorem bbLoadbReplacesTheContents : Obligations.BbLoadbReplacesTheContents := by
  intro s xs
  refine ⟨fun hxs => step_sent_encode (i := .bbLoadb xs) (decide_eq_true hxs) s, fun ops hops => ?_,
    execBbLoadb_of_lt, fun hfit => ?_⟩
  · refine step_sent_of_length_ne (o := .bbLoadb) (fun hl => ?_) s
    obtain ⟨kh, kl, ys, hys, hcount⟩ := requestLength_fBytes_iff.1 hl
    exact hops kh kl ys hys hcount
  · exact ⟨_, execBbLoadb_of_le hfit, fun _ _ => Cells.read_ofBits_bytesBits,
      fun _ => Cells.read_ofBits_bytesBits_eq_none, toNat_loadLength hfit, rfl, rfl, rfl⟩

/-- Settles O31: the cell a push sets is the last cell, which a pop unsets; and the cell a pop unsets is the one at the
length it leaves, which a push sets. -/
theorem pushAndPopAreInverse : Obligations.PushAndPopAreInverse := by
  intro s hs
  refine ⟨fun b hlt => ?_, fun h0 => ?_⟩
  · have hlast : (s.len + 1#16).toNat - 1 = s.len.toNat := by rw [toNat_len_add_one hlt, Nat.add_sub_cancel]
    have hnonempty : s.len + 1#16 ≠ 0#16 := by bv_omega
    have hb : (s.cells.write s.len.toNat b).read ((s.len + 1#16).toNat - 1) = some b := by
      rw [hlast, Cells.read_write, if_pos rfl]
    refine ⟨_, _, execBbPush_of_lt b hlt, execBbPop_of_read hnonempty hb, ⟨rfl, BitVec.add_sub_cancel _ _, ?_⟩, ?_⟩
    · simp only [State.respond_cells, State.withLen_cells, State.withCells_cells, State.respond_len, State.withLen_len,
        hlast]
      exact Cells.unset_write hs.cellsCanonical (hs.read_eq_none le_rfl) b
    · rw [← flagByte_eq_bitByte]
      rfl
  · obtain ⟨b, hb⟩ := hs.read_last h0
    have hlen : (s.len - 1#16).toNat = s.len.toNat - 1 := toNat_len_sub_one h0
    have hlt : (s.len - 1#16).toNat < s.bbN.toNat := by
      have := hs.lenInRange
      bv_omega
    refine ⟨b, _, _, execBbPop_of_read h0 hb, ?_, execBbPush_of_lt b hlt, rfl, BitVec.sub_add_cancel _ _, ?_⟩
    · rw [← flagByte_eq_bitByte]
      rfl
    · simp only [State.respond_cells, State.withLen_cells, State.withCells_cells, State.respond_len, State.withLen_len,
        hlen]
      exact Cells.write_unset hs.cellsCanonical hb

/-- Settles O33: every index of a load is below the length it leaves, so it fits 16 bits and its cell is set. -/
theorem loadedBytesReadBackMostSignificantFirst : Obligations.LoadedBytesReadBackMostSignificantFirst := by
  intro s xs hfit
  refine ⟨_, execBbLoadb_of_le hfit, fun j k hj hk => ?_, rfl⟩
  have hindex : (BitVec.ofNat 16 (8 * j + k)).toNat = 8 * j + k := by bv_omega
  rw [← flagByte_eq_bitByte]
  refine execBbGet_of_read ?_ ?_
  · rw [hindex, State.respond_len, State.withLen_len, toNat_loadLength hfit]
    omega
  · rw [hindex]
    exact Cells.read_ofBits_bytesBits hj hk

/-- Settles O1: no cell is listed after BB.CLEAR, whatever was listed before. -/
theorem bbClearEmptiesTheBuffer : Obligations.BbClearEmptiesTheBuffer :=
  fun s => ⟨step_sent_encode (i := .bbClear) rfl s, fun _ hops => step_sent_of_fNone (o := .bbClear) rfl hops s,
    _, rfl, rfl, Cells.read_allUnset, rfl, rfl, rfl⟩

/-- Settles O4: BB.LEN only responds, with the two bytes of the length. -/
theorem bbLenReturnsTheLength : Obligations.BbLenReturnsTheLength :=
  fun s => ⟨step_sent_encode (i := .bbLen) rfl s, fun _ hops => step_sent_of_fNone (o := .bbLen) rfl hops s, rfl⟩

/-- Settles O5: BB.CAP only responds, with the two bytes of the capacity. -/
theorem bbCapReturnsTheCapacity : Obligations.BbCapReturnsTheCapacity :=
  fun s => ⟨step_sent_encode (i := .bbCap) rfl s, fun _ hops => step_sent_of_fNone (o := .bbCap) rfl hops s,
    exec_bbCap s⟩

/-- Settles O32: the two ways a push can go, at the capacity and below it. -/
theorem capacityBoundary : Obligations.CapacityBoundary :=
  fun _ b => ⟨fun hfull => ⟨_, execBbPush_of_le b (by rw [hfull]), rfl, rfl⟩,
    fun hlt => ⟨_, execBbPush_of_lt b hlt, rfl, toNat_len_add_one hlt⟩⟩

end Sys2Proof.Statements
end

section
/-! PROOF. The code (41_codec.md R140 to R148): the positions of an encoded word, and the words that pass all checks,
which are the encoded words. -/

namespace Sys2Proof.Machine

open Sys2Proof.Statements

/-! ## Parities of positions -/

theorem xorOver_eq_false {c : List Bit} {ps : List Nat} (h : ∀ i ∈ ps, posBit c i = false) :
    xorOver c ps = false := by
  induction ps with
  | nil => rfl
  | cons p ps ih => rw [xorOver_cons, h p (by simp), ih fun i hi => h i (by simp [hi]), Bool.xor_self]

/-- Parities of a word are parities of its bits, position 0 the most significant. -/
theorem xorOver_fieldBits (w : Word16) (ps : List Nat) :
    xorOver (fieldBits w) ps = ps.foldl (fun acc i => acc ^^ w.getMsbD i) false := by
  simp only [xorOver, posBit_fieldBits]

/-! ## The data bits as received -/

/-- Data bit k of a word is its bit at POS(k) (41_codec.md R140, R141). -/
theorem getMsbD_receivedData (w : Word16) {k : Nat} (hk : k < dataPositions.length) :
    (receivedData w).getMsbD k = w.getMsbD dataPositions[k] := by
  refine (BitVec.getMsbD_append (x := w.extractLsb' 12 1 ++ w.extractLsb' 8 3) (y := w.extractLsb' 0 7)).trans ?_
  rw [BitVec.getMsbD_append]
  have hk11 : k < 11 := hk
  interval_cases k <;> simp [dataPositions]

theorem extractData_fieldBits (w : Word16) : extractData (fieldBits w) = receivedData w := by
  have hbits : fieldBits (extractData (fieldBits w)) = dataPositions.map (posBit (fieldBits w)) :=
    fieldBits_bitsField rfl
  refine fieldBits_injective (hbits.trans (List.ext_getElem (by simp [dataPositions]) fun k hk _ => ?_))
  rw [List.getElem_map, posBit_fieldBits, fieldBits_getElem, getMsbD_receivedData]

theorem receivedData_encodeData (d : Data) : receivedData (encodeData d) = d := by
  rw [← extractData_fieldBits, extractData_encodeData]

theorem receivedData_xor (v w : Word16) : receivedData (v ^^^ w) = receivedData v ^^^ receivedData w := by
  refine BitVec.eq_of_getMsbD_eq fun k hk => ?_
  rw [BitVec.getMsbD_xor, getMsbD_receivedData v hk, getMsbD_receivedData w hk, getMsbD_receivedData _ hk,
    BitVec.getMsbD_xor]

/-- A word whose data are 0 has no bit set at a data position. -/
theorem posBit_of_receivedData_eq_zero {w : Word16} (h : receivedData w = 0#11) {i : Nat} (hi : i ∈ dataPositions) :
    posBit (fieldBits w) i = false := by
  obtain ⟨k, hk, rfl⟩ := List.getElem_of_mem hi
  rw [posBit_fieldBits, ← getMsbD_receivedData w hk, h, BitVec.getMsbD_zero]

/-! ## The words that pass all checks -/

/-- The checks of a word are its syndrome and its overall parity. -/
structure PassesChecks (w : Word16) : Prop where
  syndrome_eq_zero : syndrome (fieldBits w) = 0#4
  overallParity_eq_false : overallParity (fieldBits w) = false

theorem passesChecks_encodeData (d : Data) : PassesChecks (encodeData d) :=
  ⟨syndrome_encodeData d, overallParity_encodeData d⟩

theorem PassesChecks.xor {v w : Word16} (hv : PassesChecks v) (hw : PassesChecks w) : PassesChecks (v ^^^ w) where
  syndrome_eq_zero := by rw [syndrome_xor, hv.syndrome_eq_zero, hw.syndrome_eq_zero, BitVec.xor_self]
  overallParity_eq_false := by
    rw [overallParity_xor, hv.overallParity_eq_false, hw.overallParity_eq_false, Bool.xor_self]

/-- With no data bit set, bit j of the syndrome is check position 2^j, and once these are 0 the overall parity is
position 0. -/
theorem PassesChecks.eq_zero {w : Word16} (hw : PassesChecks w) (hdata : receivedData w = 0#11) : w = 0#16 := by
  have hcheck (j : Nat) (hj : j < 4) : posBit (fieldBits w) (2 ^ j) = false := by
    have hs := syndrome_getLsbD (fieldBits w) hj
    have hcovered : xorOver (fieldBits w) (coveredBy (2 ^ j) dataPositions) = false :=
      xorOver_eq_false fun i hi => posBit_of_receivedData_eq_zero hdata (List.mem_of_mem_filter hi)
    rw [hw.syndrome_eq_zero, filter_testBit_lowPositions hj, xorOver_cons, hcovered, Bool.xor_false,
      BitVec.getLsbD_zero] at hs
    exact hs.symm
  have hlow : ∀ i ∈ lowPositions, posBit (fieldBits w) i = false := by
    have hsplit : ∀ i ∈ lowPositions, i ∈ dataPositions ∨ ∃ j < 4, 2 ^ j = i := by decide
    intro i hi
    obtain hi | ⟨j, hj, rfl⟩ := hsplit i hi
    · exact posBit_of_receivedData_eq_zero hdata hi
    · exact hcheck j hj
  have hparity : posBit (fieldBits w) 0 = false := by
    have hq := hw.overallParity_eq_false
    rwa [overallParity, show positions = 0 :: lowPositions from rfl, xorOver_cons, xorOver_eq_false hlow,
      Bool.xor_false] at hq
  refine BitVec.eq_of_getMsbD_eq fun i hi => ?_
  rw [← posBit_fieldBits, BitVec.getMsbD_zero]
  obtain rfl | hpos := Nat.eq_zero_or_pos i
  · exact hparity
  · exact hlow i (List.mem_range'_1.mpr ⟨hpos, by omega⟩)

/-- A word that passes all checks is the codeword of its data. -/
theorem PassesChecks.encodeData_receivedData {w : Word16} (hw : PassesChecks w) : encodeData (receivedData w) = w := by
  have hdata : receivedData (encodeData (receivedData w) ^^^ w) = 0#11 := by
    rw [receivedData_xor, receivedData_encodeData, BitVec.xor_self]
  exact BitVec.xor_eq_zero_iff.mp (((passesChecks_encodeData _).xor hw).eq_zero hdata)

/-- The sum of two codewords passes all checks, so it is the codeword of its data, which are the sum of theirs. -/
theorem encodeData_xor (a b : Data) : encodeData (a ^^^ b) = encodeData a ^^^ encodeData b := by
  have h := ((passesChecks_encodeData a).xor (passesChecks_encodeData b)).encodeData_receivedData
  rwa [receivedData_xor, receivedData_encodeData, receivedData_encodeData] at h

theorem encodeData_zero : encodeData 0#11 = 0#16 := by
  have h := encodeData_xor 0#11 0#11
  rwa [BitVec.xor_self, BitVec.xor_self] at h

/-! ## The positions of an encoded word -/

/-- The data bits in their positions, by their numbers in D (41_codec.md R140). -/
theorem placeData_eq_getLsbD (d : Data) :
    placeData d = [false, false, false, d.getLsbD 10, false, d.getLsbD 9, d.getLsbD 8, d.getLsbD 7, false, d.getLsbD 6,
      d.getLsbD 5, d.getLsbD 4, d.getLsbD 3, d.getLsbD 2, d.getLsbD 1, d.getLsbD 0] := by
  simp [placeData_eq, BitVec.getMsbD, -BitVec.getLsbD_eq_getElem]

/-- The covered sets of 41_codec.md R142, without the check positions themselves. -/
theorem coveredBy_dataPositions :
    coveredBy 1 dataPositions = [3, 5, 7, 9, 11, 13, 15] ∧ coveredBy 2 dataPositions = [3, 6, 7, 10, 11, 14, 15] ∧
      coveredBy 4 dataPositions = [5, 6, 7, 12, 13, 14, 15] ∧
      coveredBy 8 dataPositions = [9, 10, 11, 12, 13, 14, 15] := by
  decide

end Sys2Proof.Machine

namespace Sys2Proof.Statements

open Sys2Proof.Machine

/-- Settles O38: Encode is linear because codewords are the words that pass all checks; the rows are Encode's values. -/
theorem encodeIsLinear : Obligations.EncodeIsLinear :=
  ⟨encodeData_xor, encodeData_zero, by decide⟩

/-- Settles O39: each check position is the parity of the data positions it covers, and position 0 of all the others. -/
theorem codewordPositions : Obligations.CodewordPositions := by
  intro d b c1 c2 c4 c8 p0
  obtain ⟨covered1, covered2, covered4, covered8⟩ := coveredBy_dataPositions
  have hcovered : xorOver (placeData d) (coveredBy 1 dataPositions) = c1 ∧
      xorOver (placeData d) (coveredBy 2 dataPositions) = c2 ∧
      xorOver (placeData d) (coveredBy 4 dataPositions) = c4 ∧
      xorOver (placeData d) (coveredBy 8 dataPositions) = c8 := by
    simp only [covered1, covered2, covered4, covered8, xorOver, List.foldl_cons, List.foldl_nil, Bool.false_xor,
      placeData_eq_getLsbD]
    exact ⟨rfl, rfl, rfl, rfl⟩
  obtain ⟨hc1, hc2, hc4, hc8⟩ := hcovered
  have hchecks : setChecks (placeData d) =
      [false, c1, c2, b 10, c4, b 9, b 8, b 7, c8, b 6, b 5, b 4, b 3, b 2, b 1, b 0] := by
    rw [setChecks_eq, hc1, hc2, hc4, hc8, placeData_eq_getLsbD]
    rfl
  have hp0 : xorOver (setChecks (placeData d)) lowPositions = p0 := by
    rw [show lowPositions = [1, 2, 3, 4, 5, 6, 7, 8, 9, 10, 11, 12, 13, 14, 15] from rfl, hchecks]
    simp only [xorOver, List.foldl_cons, List.foldl_nil, Bool.false_xor]
    rfl
  rw [fieldBits_encodeData, setParity, hp0, hchecks, List.set_cons_zero]

/-- Settles O40: the checks look at positions that the encoder set last, and the data positions keep the data. -/
theorem encodePassesAllChecks : Obligations.EncodePassesAllChecks :=
  fun d => ⟨syndrome_encodeData d, overallParity_encodeData d, receivedData_encodeData d⟩

/-- Settles O41: bit j of the XOR of the set positions counts those whose index has bit j set. -/
theorem syndromeAndOverallParity : Obligations.SyndromeAndOverallParity :=
  fun w => ⟨fun _ hj => (syndrome_getLsbD _ hj).trans (xorOver_fieldBits w _), xorOver_fieldBits w _⟩

end Sys2Proof.Statements
end

section
/-! PROOF. Decoding (41_codec.md R149 to R155): the DecodeStatus and the data of every word, what errors do to an
encoded word, and the two codec commands. -/

namespace Sys2Proof.Machine

open Sys2Proof.Statements

/-! ## Flipped bits -/

theorem eq_zero_of_xor_eq_left {n : Nat} {x y : BitVec n} (h : x ^^^ y = x) : y = 0#n :=
  (BitVec.xor_right_inj x).mp (h.trans BitVec.xor_zero.symm)

/-- An error adds its own checks to those of the codeword it meets, which are 0. -/
theorem syndrome_encodeData_xor (d : Data) (e : Word16) :
    syndrome (fieldBits (encodeData d ^^^ e)) = syndrome (fieldBits e) := by
  rw [syndrome_xor, syndrome_encodeData, BitVec.zero_xor]

theorem overallParity_encodeData_xor (d : Data) (e : Word16) :
    overallParity (fieldBits (encodeData d ^^^ e)) = overallParity (fieldBits e) := by
  rw [overallParity_xor, overallParity_encodeData, Bool.false_xor]

theorem getMsbD_positionMask {p i : Nat} (hp : p < 16) (hi : i < 16) :
    (positionMask p).getMsbD i = decide (i = p) := by
  have hbit : 15 - p = 15 - i ↔ i = p := by omega
  have hlt : 15 - i < 16 := by omega
  rw [BitVec.getMsbD, positionMask, BitVec.getLsbD_ofNat, Nat.testBit_two_pow]
  simp [hi, hlt, hbit]

theorem setPositions_positionMask {p : Nat} (hp : p < 16) : setPositions (fieldBits (positionMask p)) = [p] := by
  have hfilter : setPositions (fieldBits (positionMask p)) = positions.filter (· == p) :=
    List.filter_congr fun i hi => by
      rw [posBit_fieldBits, getMsbD_positionMask hp (List.mem_range.mp hi)]
      rfl
  rw [hfilter, List.filter_beq, positions, List.count_eq_one_of_mem List.nodup_range (List.mem_range.mpr hp)]
  rfl

theorem weight_positionMask {p : Nat} (hp : p < 16) : weight (positionMask p) = 1 := by
  rw [weight_eq_length_setPositions, setPositions_positionMask hp]
  rfl

/-- The syndrome of a single flip is its position (41_codec.md R147). -/
theorem syndrome_positionMask {p : Nat} (hp : p < 16) : syndrome (fieldBits (positionMask p)) = BitVec.ofNat 4 p := by
  rw [syndrome_eq_foldl_setPositions, setPositions_positionMask hp]
  exact BitVec.zero_xor

theorem overallParity_positionMask {p : Nat} (hp : p < 16) : overallParity (fieldBits (positionMask p)) = true := by
  rw [overallParity_eq_decide_odd_weight, weight_positionMask hp]
  rfl

/-- The flip of a position is the sum with its mask. -/
theorem fieldBits_xor_positionMask (w : Word16) {p : Nat} (hp : p < 16) :
    fieldBits (w ^^^ positionMask p) = (fieldBits w).set p (!posBit (fieldBits w) p) := by
  refine List.ext_getElem (by simp) fun i hi _ => ?_
  have hi16 : i < 16 := by simpa using hi
  rw [fieldBits_getElem, BitVec.getMsbD_xor, getMsbD_positionMask hp hi16, List.getElem_set, fieldBits_getElem,
    posBit_fieldBits]
  by_cases hip : p = i
  · simp [hip]
  · simp [hip, Ne.symm hip]

/-! ## Decoding (R149, R150) -/

theorem decodeWord_of_passesChecks {w : Word16} (hw : PassesChecks w) : decodeWord w = (receivedData w, .clean) := by
  rw [decodeWord_eq, (classify_clean_iff _ _).mpr ⟨hw.syndrome_eq_zero, hw.overallParity_eq_false⟩, correct,
    extractData_fieldBits]

/-- At an odd overall parity the position that the syndrome names is flipped, position 0 included. -/
theorem decodeWord_of_odd {w : Word16} (hq : overallParity (fieldBits w) = true) :
    decodeWord w = (receivedData (w ^^^ positionMask (syndrome (fieldBits w)).toNat),
      .correctedSingleBit (syndrome (fieldBits w))) := by
  rw [decodeWord_eq, (classify_corrected_iff _ _ _).mpr ⟨hq, rfl⟩, correct,
    ← fieldBits_xor_positionMask w (BitVec.isLt _), extractData_fieldBits]

theorem decodeWord_of_uncorrectable {w : Word16} (hs : syndrome (fieldBits w) ≠ 0#4)
    (hq : overallParity (fieldBits w) = false) : decodeWord w = (receivedData w, .uncorrectableMultiBit) := by
  rw [decodeWord_eq, (classify_uncorrectable_iff _ _).mpr ⟨hs, hq⟩, correct, extractData_fieldBits]

/-- Position 0 carries no data. -/
theorem receivedData_xor_positionMask_zero (w : Word16) : receivedData (w ^^^ positionMask 0) = receivedData w := by
  have hmask : receivedData (positionMask 0) = 0#11 := by decide
  rw [receivedData_xor, hmask, BitVec.xor_zero]

/-- At an odd overall parity the corrected word passes all checks: the flip adds its position to the syndrome, which
named it. -/
theorem passesChecks_corrected {w : Word16} (hq : overallParity (fieldBits w) = true) :
    PassesChecks (w ^^^ positionMask (syndrome (fieldBits w)).toNat) where
  syndrome_eq_zero := by
    rw [syndrome_xor, syndrome_positionMask (BitVec.isLt _), BitVec.ofNat_toNat, BitVec.setWidth_eq, BitVec.xor_self]
  overallParity_eq_false := by rw [overallParity_xor, hq, overallParity_positionMask (BitVec.isLt _), Bool.xor_self]

/-! ## Encoded words with errors (R154, R155) -/

theorem decodeWord_encodeData (d : Data) : decodeWord (encodeData d) = (d, .clean) := by
  rw [decodeWord_of_passesChecks (passesChecks_encodeData d), receivedData_encodeData]

/-- A single flip shows its position as the syndrome, and flipping that position again gives the codeword back. -/
theorem decodeWord_encodeData_xor_positionMask (d : Data) {p : Nat} (hp : p < 16) :
    decodeWord (encodeData d ^^^ positionMask p) = (d, .correctedSingleBit (BitVec.ofNat 4 p)) := by
  have hs : syndrome (fieldBits (encodeData d ^^^ positionMask p)) = BitVec.ofNat 4 p := by
    rw [syndrome_encodeData_xor, syndrome_positionMask hp]
  have hq : overallParity (fieldBits (encodeData d ^^^ positionMask p)) = true := by
    rw [overallParity_encodeData_xor, overallParity_positionMask hp]
  have hpos : (BitVec.ofNat 4 p).toNat = p := Nat.mod_eq_of_lt hp
  rw [decodeWord_of_odd hq, hs, hpos, BitVec.xor_assoc, BitVec.xor_self, BitVec.xor_zero, receivedData_encodeData]

/-- Two flips keep the overall parity and show the sum of their positions as the syndrome, which is not 0. -/
theorem decodeWord_encodeData_xor_two (d : Data) {p p' : Nat} (hp : p < 16) (hp' : p' < 16) (hne : p ≠ p') :
    (decodeWord (encodeData d ^^^ positionMask p ^^^ positionMask p')).2 = .uncorrectableMultiBit := by
  have hs : syndrome (fieldBits (encodeData d ^^^ positionMask p ^^^ positionMask p')) ≠ 0#4 := by
    rw [syndrome_xor, syndrome_encodeData_xor, syndrome_positionMask hp, syndrome_positionMask hp', ne_eq,
      BitVec.xor_eq_zero_iff]
    intro h
    exact hne (by simpa [Nat.mod_eq_of_lt hp, Nat.mod_eq_of_lt hp'] using congrArg BitVec.toNat h)
  have hq : overallParity (fieldBits (encodeData d ^^^ positionMask p ^^^ positionMask p')) = false := by
    rw [overallParity_xor, overallParity_encodeData_xor, overallParity_positionMask hp, overallParity_positionMask hp',
      Bool.xor_self]
  rw [decodeWord_of_uncorrectable hs hq]

/-- An odd error is never right if it is more than one flip: the corrected word is a codeword, and it is the one sent
only if the error was the flip that the correction undoes. -/
theorem decodeWord_encodeData_xor_of_odd (d : Data) {e : Word16} (hodd : weight e % 2 = 1) (h3 : 3 ≤ weight e) :
    ∃ d' p, decodeWord (encodeData d ^^^ e) = (d', .correctedSingleBit p) ∧ d' ≠ d := by
  have hq : overallParity (fieldBits (encodeData d ^^^ e)) = true := by
    rw [overallParity_encodeData_xor, overallParity_eq_decide_odd_weight, decide_eq_true hodd]
  refine ⟨_, _, decodeWord_of_odd hq, fun hd => ?_⟩
  have hsent := (passesChecks_corrected hq).encodeData_receivedData
  rw [hd, BitVec.xor_assoc] at hsent
  have hflip := BitVec.xor_eq_zero_iff.mp (eq_zero_of_xor_eq_left hsent.symm)
  have hweight : weight e = 1 := hflip ▸ weight_positionMask (BitVec.isLt _)
  omega

/-- An even error shows its own checks, of which only the syndrome can fail. -/
theorem decodeWord_encodeData_xor_of_even (d : Data) {e : Word16} (heven : weight e % 2 = 0)
    (hnot : ∀ d', e ≠ encodeData d') : (decodeWord (encodeData d ^^^ e)).2 = .uncorrectableMultiBit := by
  have hq : overallParity (fieldBits e) = false := by
    simp [overallParity_eq_decide_odd_weight, heven]
  have hs : syndrome (fieldBits e) ≠ 0#4 := fun hs =>
    hnot _ (PassesChecks.mk hs hq).encodeData_receivedData.symm
  rw [← syndrome_encodeData_xor d] at hs
  rw [← overallParity_encodeData_xor d] at hq
  rw [decodeWord_of_uncorrectable hs hq]

/-- An error that is a codeword leaves a codeword. -/
theorem decodeWord_encodeData_xor_encodeData (d d' : Data) :
    decodeWord (encodeData d ^^^ encodeData d') = (d ^^^ d', .clean) := by
  rw [← encodeData_xor, decodeWord_encodeData]

end Sys2Proof.Machine

namespace Sys2Proof.Statements

open Sys2Proof.Machine

/-- Settles O44: the syndrome of the errors is the sum of their positions, and their overall parity is that of their
number. -/
theorem singleErrorsCorrectedDoubleErrorsDetected : Obligations.SingleErrorsCorrectedDoubleErrorsDetected :=
  fun d => ⟨fun _ hp => decodeWord_encodeData_xor_positionMask d hp,
    fun _ _ hp hp' hne => decodeWord_encodeData_xor_two d hp hp' hne⟩

/-- Settles O45, by the weight of the error and whether it is a codeword; a codeword of data 0 has weight 0. -/
theorem residualRiskOfManyErrors : Obligations.ResidualRiskOfManyErrors := by
  refine fun d e => ⟨decodeWord_encodeData_xor_of_odd d, fun heven _ => decodeWord_encodeData_xor_of_even d heven,
    fun _ h4 d' he => ?_⟩
  subst he
  refine ⟨decodeWord_encodeData_xor_encodeData d d', fun hd => ?_⟩
  obtain rfl : d' = 0#11 := eq_zero_of_xor_eq_left hd
  have hzero : weight (encodeData 0#11) = 0 := by rw [encodeData_zero]; rfl
  omega

/-- Settles O43: an uncorrectable word is not corrected. -/
theorem uncorrectableDataIsAsReceived : Obligations.UncorrectableDataIsAsReceived := by
  intro w h
  obtain ⟨hs, hq⟩ := (classify_uncorrectable_iff _ _).mp h
  rw [decodeWord_of_uncorrectable hs hq]

/-- Settles O42; at syndrome 0 and odd parity the flip is of position 0, which carries no data. -/
theorem decodeClassification : Obligations.DecodeClassification := by
  intro w
  refine ⟨fun hs hq => decodeWord_of_passesChecks ⟨hs, hq⟩, fun _ hq => decodeWord_of_odd hq, fun hs hq => ?_,
    fun hs hq => by rw [decodeWord_of_uncorrectable hs hq]⟩
  rw [decodeWord_of_odd hq, hs]
  exact congrArg (·, _) (receivedData_xor_positionMask_zero w)

/-- A command of format F-U16 takes two operand bytes. -/
theorem step_sent_of_fU16 {o : Opcode} (ho : o.format = .fU16) {ops : List Byte} (h : ops.length ≠ 2) (s : State) :
    step (sent s (o.byte :: ops)) = .next (answered s [0x07#8]) :=
  step_sent_of_length_ne (fun hl => h (List.length_eq_two.2 (requestLength_fU16_iff.1 (ho ▸ hl)))) s

/-- Settles O8: the 16-bit field of D has its five reserved bits 0, so it is the request of ENCODE D. -/
theorem encodeReturnsTheCodeword : Obligations.EncodeReturnsTheCodeword := by
  intro s d
  refine ⟨?_, fun ops hops => step_sent_of_fU16 (o := .encode) rfl hops s, fun v hv => ?_, ?_, encodeData_zero,
    by decide, by decide, decodeWord_encodeData d⟩
  · rw [show d.setWidth 16 = 0#5 ++ d from BitVec.setWidth_eq_append (by decide)]
    exact step_sent_encode (i := .encode d) rfl s
  · obtain ⟨-, -, hreserved, -⟩ := wrongLengthsAndReservedBitsAreIllegal s .encode [hi v, lo v]
    rw [← append_bytes16 v, reserved_of_word] at hv
    exact hreserved rfl hv
  · rw [exec_encode, respond_eq_answered]
    rfl

/-- Settles O9: the three DecodeStatus values give the code and the position. -/
theorem decodeReturnsDataAndStatus : Obligations.DecodeReturnsDataAndStatus := by
  intro s w
  refine ⟨step_sent_encode (i := .decode w) rfl s, fun ops hops => step_sent_of_fU16 (o := .decode) rfl hops s,
    fun d hd => ?_, fun d p hd => ?_, fun d hd => ?_⟩
  all_goals
    rw [exec_decode, hd, respond_eq_answered]
    rfl

end Sys2Proof.Statements
end

section
/-! PROOF. The telemetry record (42_record.md R180 to R192): its bytes field by field, the record that an image holds,
and the two record commands. -/

namespace Sys2Proof.Machine

open Sys2Proof.Statements

/-! ## The status byte (R185) -/

theorem RecordStatus.code_eq_statusByte (st : RecordStatus) : st.code = statusByte st := by
  cases st <;> rfl

theorem RecordStatus.ofByte_eq_some_iff {b : Byte} {st : RecordStatus} :
    RecordStatus.ofByte b = some st ↔ statusByte st = b := by
  constructor
  · intro h
    rw [RecordStatus.ofByte] at h
    split_ifs at h with hok hemergency
    · obtain rfl := Option.some.inj h
      exact hok.symm
    · obtain rfl := Option.some.inj h
      exact hemergency.symm
  · rintro rfl
    cases st <;> rfl

theorem validStatus_iff {b : Byte} : validStatus b ↔ ∃ st, statusByte st = b := by
  constructor
  · rintro (rfl | rfl)
    · exact ⟨.ok, rfl⟩
    · exact ⟨.emergency, rfl⟩
  · rintro ⟨_ | _, rfl⟩
    · exact .inl rfl
    · exact .inr rfl

/-! ## The layout (R180) -/

@[simp] theorem fieldBytes_length (r : TelemetryRecord) : (fieldBytes r).length = 61 := by
  simp [fieldBytes]

/-- Every field's bits are those of its bytes. -/
theorem serializeRecord_eq_bytesBits (r : TelemetryRecord) : serializeRecord r = bytesBits (fieldBytes r) := by
  simp [serializeRecord, fieldBytes, Position.bits, Velocity.bits, Timestamp.bits, bytesBits_bytes16,
    bytesBits_bytes32, RecordStatus.code_eq_statusByte]

/-! ## Images and their bits (R186, R187) -/

theorem bitsBytes_bytesBits_of_length {img : List Byte} (hl : img.length = 61) :
    bitsBytes Config.recordBytes (bytesBits img) = img := by
  rw [Config.recordBytes, ← hl, bitsBytes_bytesBits]

theorem recordImage_eq_fieldBytes (r : TelemetryRecord) : recordImage r = fieldBytes r := by
  rw [recordImage, serializeRecord_eq_bytesBits, bitsBytes_bytesBits_of_length (fieldBytes_length r)]

theorem deserializeBits_bytesBits {img : List Byte} (hl : img.length = 61) :
    deserializeBits (bytesBits img) = recordOfImage img := by
  rw [deserializeBits, bitsBytes_bytesBits_of_length hl]

/-! ## The bytes of an image -/

theorem byteAt_eq_getElem {xs : List Byte} {i : Nat} (h : i < xs.length) : byteAt xs i = xs[i] := by
  simp [byteAt, h]

theorem byteAt_append_of_le {xs : List Byte} (ys : List Byte) {k : Nat} (h : xs.length ≤ k) :
    byteAt (xs ++ ys) k = byteAt ys (k - xs.length) := by
  rw [← byteAt_append_right xs ys, Nat.add_sub_cancel' h]

theorem word16At_append_of_le {xs : List Byte} (ys : List Byte) {k : Nat} (h : xs.length ≤ k) :
    word16At (xs ++ ys) k = word16At ys (k - xs.length) := by
  rw [← word16At_append_right xs ys, Nat.add_sub_cancel' h]

theorem word32At_append_of_le {xs : List Byte} (ys : List Byte) {k : Nat} (h : xs.length ≤ k) :
    word32At (xs ++ ys) k = word32At ys (k - xs.length) := by
  rw [← word32At_append_right xs ys, Nat.add_sub_cancel' h]

theorem byteAt_cons_zero (x : Byte) (xs : List Byte) : byteAt (x :: xs) 0 = x := rfl

theorem byteAt_singleton_append (x : Byte) (xs : List Byte) : byteAt ([x] ++ xs) 0 = x := rfl

theorem map_byteAt_range (xs : List Byte) : (List.range xs.length).map (byteAt xs) = xs :=
  List.ext_getElem (by simp) fun i _ hi => by simp [byteAt_eq_getElem hi]

theorem toList_ofFn_eq_map_range (n : Nat) (f : Nat → Byte) :
    (Vector.ofFn fun j : Fin n => f j).toList = (List.range n).map f :=
  List.ext_getElem (by simp) fun i _ _ => by simp

theorem bytes16_word16At (xs : List Byte) (i : Nat) : bytes16 (word16At xs i) = [byteAt xs i, byteAt xs (i + 1)] :=
  bytes16_append _ _

theorem bytes32_word32At (xs : List Byte) (i : Nat) :
    bytes32 (word32At xs i) = [byteAt xs i, byteAt xs (i + 1), byteAt xs (i + 2), byteAt xs (i + 3)] :=
  bytes32_append _ _ _ _

/-! ## The record of an image (R187) -/

theorem ofFn_byteAt_fieldBytes (r : TelemetryRecord) :
    (Vector.ofFn fun j : Fin 20 => byteAt (fieldBytes r) j) = r.serial := by
  refine Vector.ext fun j hj => ?_
  have hlt : j < r.serial.toList.length := by simpa using hj
  simp only [Vector.getElem_ofFn, fieldBytes, List.append_assoc, byteAt]
  rw [List.getD_append _ _ _ _ hlt]
  simp [hj]

/-- The fields are read at the offsets at which the layout writes them: each field's offset is the length of those
before it. -/
theorem recordOfImage_fieldBytes (r : TelemetryRecord) : recordOfImage (fieldBytes r) = some r := by
  have hstatus : RecordStatus.ofByte (statusByte r.status) = some r.status := RecordStatus.ofByte_eq_some_iff.mpr rfl
  have hlen16 : ∀ v, (bytes16 v).length = 2 := bytes16_length
  have hlen32 : ∀ v, (bytes32 v).length = 4 := bytes32_length
  simp only [recordOfImage, positionAt, ofFn_byteAt_fieldBytes]
  simp only [fieldBytes, List.append_assoc, byteAt_append_of_le, word16At_append_of_le, word32At_append_of_le,
    Vector.length_toList, hlen16, hlen32, List.length_singleton, Nat.reduceAdd, Nat.reduceSub, Nat.reduceLeDiff,
    le_refl, word16At_bytes16, word32At_bytes32, byteAt_singleton_append, byteAt_cons_zero, hstatus, Option.map_some]

/-- The bytes of the fields read are the bytes of the image in order. -/
theorem fieldBytes_of_recordOfImage {img : List Byte} {r : TelemetryRecord} (hl : img.length = 61)
    (h : recordOfImage img = some r) : fieldBytes r = img := by
  obtain ⟨st, hst, rfl⟩ := Option.map_eq_some_iff.mp h
  have hstatus : statusByte st = byteAt img 60 := RecordStatus.ofByte_eq_some_iff.mp hst
  calc fieldBytes _
      = (List.range 20).map (byteAt img) ++ (List.range' 20 41).map (byteAt img) := by
        simp only [fieldBytes, toList_ofFn_eq_map_range, positionAt, bytes32_word32At, bytes16_word16At, hstatus,
          List.append_assoc]
        rfl
    _ = (List.range 61).map (byteAt img) := rfl
    _ = img := by rw [← hl, map_byteAt_range]

/-- An image holds a record unless its status byte is not valid; no other byte is looked at. -/
theorem recordOfImage_eq_none_iff {img : List Byte} : recordOfImage img = none ↔ ¬ validStatus (byteAt img 60) := by
  rw [recordOfImage, Option.map_eq_none_iff, Option.eq_none_iff_forall_ne_some, validStatus_iff]
  simp only [ne_eq, RecordStatus.ofByte_eq_some_iff, not_exists]

/-- The image of a valid status byte is the image of the record it holds. -/
theorem exists_recordOfImage {img : List Byte} (hl : img.length = 61) (hv : validStatus (byteAt img 60)) :
    ∃ r, recordOfImage img = some r ∧ recordImage r = img := by
  obtain ⟨r, hr⟩ := Option.ne_none_iff_exists'.mp fun hnone => recordOfImage_eq_none_iff.mp hnone hv
  exact ⟨r, hr, by rw [recordImage_eq_fieldBytes, fieldBytes_of_recordOfImage hl hr]⟩

/-! ## Serialize and Deserialize on bits (R192) -/

theorem byteAt_bitsBytes {n i : Nat} (hi : i < n) (bs : List Bit) :
    byteAt (bitsBytes n bs) i = bitsField 8 (sliceBits (8 * i) 8 bs) := by
  rw [byteAt_eq_getElem (by simpa using hi)]
  simp [bitsBytes]

theorem deserializeBits_serializeRecord (r : TelemetryRecord) : deserializeBits (serializeRecord r) = some r := by
  rw [serializeRecord_eq_bytesBits, deserializeBits_bytesBits (fieldBytes_length r), recordOfImage_fieldBytes]

theorem serializeRecord_of_deserializeBits {bs : List Bit} {r : TelemetryRecord} (hl : bs.length = 488)
    (h : deserializeBits bs = some r) : serializeRecord r = bs := by
  rw [serializeRecord_eq_bytesBits, fieldBytes_of_recordOfImage (bitsBytes_length _ bs) h, bytesBits_bitsBytes hl]

/-- The status byte of a 488-bit sequence is its last eight bits. -/
theorem deserializeBits_eq_none_iff {bs : List Bit} (hl : bs.length = 488) :
    deserializeBits bs = none ↔ ¬ validStatus (bitsField 8 (bs.drop 480)) := by
  have hstatus : sliceBits (8 * 60) 8 bs = bs.drop 480 := List.take_of_length_le (by simp [hl])
  rw [deserializeBits, recordOfImage_eq_none_iff, byteAt_bitsBytes (by decide), hstatus]

end Sys2Proof.Machine

namespace Sys2Proof.Statements

open Sys2Proof.Machine

/-- Settles O47: the record image is the bytes whose bits the serialized fields are. -/
theorem recordLayout : Obligations.RecordLayout :=
  fun r => ⟨recordImage_eq_fieldBytes r, serializeRecord_eq_bytesBits r, serializeRecord_length r⟩

/-- Settles O49: the one way to no record is the status byte. -/
theorem onlyTheStatusByteIsChecked : Obligations.OnlyTheStatusByteIsChecked :=
  fun _ hl => deserializeBits_eq_none_iff hl

/-- Settles O48: the layout is read back field by field, and a valid sequence is the layout of the record it holds. -/
theorem recordRoundTrip : Obligations.RecordRoundTrip := by
  refine ⟨deserializeBits_serializeRecord, fun bs hl hv => ?_⟩
  obtain ⟨r, hr⟩ := Option.ne_none_iff_exists'.mp fun hnone => (deserializeBits_eq_none_iff hl).mp hnone hv
  exact ⟨r, hr, serializeRecord_of_deserializeBits hl hr⟩

/-- A command of format F-REC takes the 61 bytes of an image. -/
theorem step_sent_of_fRec {o : Opcode} (ho : o.format = .fRec) {ops : List Byte} (h : ops.length ≠ 61) (s : State) :
    step (sent s (o.byte :: ops)) = .next (answered s [0x07#8]) :=
  step_sent_of_length_ne (fun hl => h (requestLength_fRec_iff.1 (ho ▸ hl))) s

/-- Settles O10: a valid image is the image of the record it holds, and an image that is not valid holds none. -/
theorem serializeReturnsTheRecordBits : Obligations.SerializeReturnsTheRecordBits := by
  intro s img
  refine ⟨fun hl => step_sent_encode (i := .serialize img) (decide_eq_true hl) s,
    fun hl => step_sent_of_fRec (o := .serialize) rfl hl s, fun hl hv => ?_, fun hl hv => ?_⟩
  all_goals rw [← byteAt_eq_getElem] at hv
  · obtain ⟨r, hr, himg⟩ := exists_recordOfImage hl hv
    rw [exec_serialize_of_some hr, himg, respond_eq_answered]
    rfl
  · rw [exec_serialize_of_none (recordOfImage_eq_none_iff.mpr hv), raise_eq_answered]
    rfl

/-- Settles O11: the image's bits pack to the image, so DESERIALIZE reads the record that the image holds. -/
theorem deserializeChecksOnlyTheStatus : Obligations.DeserializeChecksOnlyTheStatus := by
  intro s img
  refine ⟨fun hl => step_sent_encode (i := .deserialize img) (decide_eq_true hl) s,
    fun hl => step_sent_of_fRec (o := .deserialize) rfl hl s, fun hl hv => ?_, fun hl hv => ?_⟩
  all_goals
    rw [← byteAt_eq_getElem] at hv
    have hbits := deserializeBits_bytesBits hl
  · obtain ⟨r, hr, himg⟩ := exists_recordOfImage hl hv
    rw [exec_deserialize_of_some (hbits.trans hr), himg, respond_eq_answered]
    rfl
  · rw [exec_deserialize_of_none (hbits.trans (recordOfImage_eq_none_iff.mpr hv)), raise_eq_answered]
    rfl

end Sys2Proof.Statements
end

section
/-! PROOF. The Message (43_framer.md R210 to R224): the data of its blocks, what a decoder finds in them, with and
without flipped bits, and the two framer commands. -/

namespace Sys2Proof.Machine

open Sys2Proof.Statements

/-! ## The bits of a concatenation -/

theorem fieldBits_append {m n : Nat} (u : BitVec m) (v : BitVec n) : fieldBits (u ++ v) = fieldBits u ++ fieldBits v := by
  refine List.ext_getElem (by simp) fun i hi _ => ?_
  rw [fieldBits_getElem, BitVec.getMsbD_append, List.getElem_append]
  by_cases him : i < m
  · simp [him, Nat.not_le.mpr him, fieldBits_getElem]
  · simp [him, Nat.le_of_not_lt him, fieldBits_getElem]

/-- The bits of a value are those of its high part before those of its low part. -/
theorem fieldBits_high_low {m n : Nat} (v : BitVec (m + n)) :
    fieldBits v = fieldBits (v.extractLsb' n m) ++ fieldBits (v.extractLsb' 0 n) := by
  rw [← fieldBits_append, high_append_low]

theorem fieldBits_zero (w : Nat) : fieldBits (0#w) = List.replicate w false :=
  List.ext_getElem (by simp) fun i _ _ => by rw [fieldBits_getElem, BitVec.getMsbD_zero, List.getElem_replicate]

/-! ## The data of a Message (R212 to R214) -/

/-- The data of the 45 blocks of a record's Message. -/
def messageData (r : TelemetryRecord) : List Data :=
  (List.range 45).map (groupData (padStream (serializeRecord r)))

@[simp] theorem messageData_length (r : TelemetryRecord) : (messageData r).length = 45 := by
  simp [messageData]

theorem messageWords_eq_map_encodeData (r : TelemetryRecord) : messageWords r = (messageData r).map encodeData := by
  rw [messageWords, messageData, List.map_map]
  rfl

theorem flatMap_fieldBits_messageData (r : TelemetryRecord) :
    (messageData r).flatMap fieldBits = padStream (serializeRecord r) := by
  rw [messageData, List.flatMap_map, flatMap_groups_padStream]

/-- The status byte is the last of the record, so four of its bits are left for the last group. -/
theorem groupData_last (r : TelemetryRecord) :
    groupData (padStream (serializeRecord r)) 44 = r.status.code.extractLsb' 0 4 ++ 0#7 := by
  have hrecord : ∃ front : List Bit, front.length = 480 ∧ serializeRecord r = front ++ fieldBits r.status.code :=
    ⟨_, by simp [Position.bits, Velocity.bits, Timestamp.bits], rfl⟩
  obtain ⟨front, hfront, hr⟩ := hrecord
  have hstream : padStream (serializeRecord r) = (front ++ fieldBits (r.status.code.extractLsb' 4 4)) ++
      (fieldBits (r.status.code.extractLsb' 0 4) ++ fieldBits 0#7) := by
    rw [hr, padStream, Config.padBits, fieldBits_high_low (m := 4) (n := 4) r.status.code, ← fieldBits_zero]
    simp only [List.append_assoc]
  apply fieldBits_injective
  rw [fieldBits_groupData (by simp), hstream, sliceBits, List.drop_left' (by simp [hfront]),
    List.take_of_length_le (by simp), fieldBits_append]

theorem blockWord_frameRecord (r : TelemetryRecord) {j : Nat} (hj : j < 45) :
    blockWord (frameRecord r) j = encodeData (groupData (padStream (serializeRecord r)) j) := by
  refine (word16At_packWords (messageWords r) j (by simpa using hj)).trans ?_
  simp [messageWords]

/-- The last block of a Message is the codeword of the low four status bits and the padding. -/
theorem blockWord_frameRecord_last (r : TelemetryRecord) :
    blockWord (frameRecord r) 44 = encodeData (r.status.code.extractLsb' 0 4 ++ 0#7) := by
  rw [blockWord_frameRecord r (by decide), groupData_last]

theorem code_of_recordOfImage {img : List Byte} {r : TelemetryRecord} (h : recordOfImage img = some r) :
    r.status.code = byteAt img 60 := by
  obtain ⟨st, hst, rfl⟩ := Option.map_eq_some_iff.mp h
  exact (RecordStatus.code_eq_statusByte st).trans (RecordStatus.ofByte_eq_some_iff.mp hst)

theorem frameRecord_of_recordOfImage {img : List Byte} {r : TelemetryRecord} (hl : img.length = 61)
    (h : recordOfImage img = some r) :
    frameRecord r = (List.range 45).flatMap fun j => bytes16 (encodeData (groupData (padStream (bytesBits img)) j)) := by
  rw [frameRecord, packWords, messageWords, List.flatMap_map, serializeRecord_eq_bytesBits,
    fieldBytes_of_recordOfImage hl h]
  rfl

/-! ## What the decoder finds (R216, R217, R220) -/

theorem DecodeStatus.isUncorrectable_iff {st : DecodeStatus} :
    st.isUncorrectable = true ↔ st = .uncorrectableMultiBit := by
  cases st <;> simp [DecodeStatus.isUncorrectable]

theorem DecodeStatus.isCorrected_iff {st : DecodeStatus} :
    st.isCorrected = true ↔ ∃ p, st = .correctedSingleBit p := by
  cases st <;> simp [DecodeStatus.isCorrected]

theorem decodeBlocks_eq_map_blockWord (msg : List Byte) :
    decodeBlocks msg = (List.range 45).map fun j => decodeWord (blockWord msg j) := by
  rw [decodeBlocks, unpackWords, List.map_map]
  rfl

theorem findIdx?_uncorrectable_eq_some {msg : List Byte} {j : Nat} (hj : j < 45)
    (hbad : (decodeWord (blockWord msg j)).2 = .uncorrectableMultiBit)
    (hleast : ∀ k, k < j → (decodeWord (blockWord msg k)).2 ≠ .uncorrectableMultiBit) :
    (decodeBlocks msg).findIdx? (fun b => b.2.isUncorrectable) = some j := by
  rw [List.findIdx?_eq_some_iff_getElem]
  refine ⟨by simpa using hj, ?_, fun k hk => ?_⟩
  · simpa [decodeBlocks_eq_map_blockWord, DecodeStatus.isUncorrectable_iff] using hbad
  · simpa [decodeBlocks_eq_map_blockWord, DecodeStatus.isUncorrectable_iff] using hleast k hk

theorem findIdx?_uncorrectable_eq_none {msg : List Byte}
    (h : ∀ j, j < 45 → (decodeWord (blockWord msg j)).2 ≠ .uncorrectableMultiBit) :
    (decodeBlocks msg).findIdx? (fun b => b.2.isUncorrectable) = none := by
  simpa [decodeBlocks_eq_map_blockWord, ← Bool.not_eq_true, DecodeStatus.isUncorrectable_iff] using h

theorem anyCorrected_decodeBlocks_iff {msg : List Byte} :
    anyCorrected ((decodeBlocks msg).map Prod.snd) = true ↔
      ∃ j p, j < 45 ∧ (decodeWord (blockWord msg j)).2 = .correctedSingleBit p := by
  simp [anyCorrected, decodeBlocks_eq_map_blockWord, DecodeStatus.isCorrected_iff]

@[simp] theorem blockBits_length (blocks : List (Data × DecodeStatus)) :
    (blockBits blocks).length = 11 * blocks.length := by
  simp [blockBits, Nat.mul_comm]

theorem messageBits_eq_take_blockBits (msg : List Byte) :
    messageBits msg = (blockBits (decodeBlocks msg)).take Config.recordBits := by
  rw [decodeBlocks_eq_map_blockWord, blockBits, List.flatMap_map]
  rfl

theorem messageBits_length (msg : List Byte) : (messageBits msg).length = 488 := by
  simp [messageBits_eq_take_blockBits, Config.recordBits]

/-- Unframing looks at nothing but the blocks' statuses and the 488 record bits. -/
theorem unframeMessage_congr {msg msg' : List Byte}
    (hstatus : (decodeBlocks msg).map Prod.snd = (decodeBlocks msg').map Prod.snd)
    (hbits : (blockBits (decodeBlocks msg)).take Config.recordBits =
      (blockBits (decodeBlocks msg')).take Config.recordBits) :
    unframeMessage msg = unframeMessage msg' := by
  have hfind (m : List Byte) : (decodeBlocks m).findIdx? (fun b => b.2.isUncorrectable) =
      ((decodeBlocks m).map Prod.snd).findIdx? DecodeStatus.isUncorrectable := by
    rw [List.findIdx?_map]
    rfl
  rw [unframeMessage, unframeMessage, hfind, hfind, hstatus, hbits]

/-- Blocks that hold a record's data and are not uncorrectable unframe to that record. -/
theorem unframeMessage_of_decodeBlocks_eq_zip {msg : List Byte} {r : TelemetryRecord} {sts : List DecodeStatus}
    (hl : sts.length = 45) (hblocks : decodeBlocks msg = (messageData r).zip sts)
    (hgood : ∀ st ∈ sts, st.isUncorrectable = false) : unframeMessage msg = .record r (anyCorrected sts) := by
  have hstatus : (decodeBlocks msg).map Prod.snd = sts := by
    rw [hblocks, List.map_snd_zip (by simp [hl])]
  have hbits : blockBits (decodeBlocks msg) = padStream (serializeRecord r) := by
    rw [blockBits, ← List.flatMap_map Prod.fst fieldBits, hblocks, List.map_fst_zip (by simp [hl]),
      flatMap_fieldBits_messageData]
  have hnone : (decodeBlocks msg).findIdx? (fun b => b.2.isUncorrectable) = none :=
    List.findIdx?_eq_none_iff.mpr fun b hb => hgood b.2 (hstatus ▸ List.mem_map_of_mem hb)
  rw [← hstatus]
  exact unframeMessage_of_record hnone (by rw [hbits, take_padStream, deserializeBits_serializeRecord])

/-! ## At most one flipped bit in a block (R224) -/

/-- An error word with no bit set, or one. -/
def AtMostOneFlip (e : Word16) : Prop :=
  e = 0#16 ∨ ∃ p, p < 16 ∧ e = positionMask p

theorem positionMask_ne_zero {p : Nat} (hp : p < 16) : positionMask p ≠ 0#16 := fun h => by
  have hbit := getMsbD_positionMask hp hp
  simp [h] at hbit

theorem decodeWord_zero : decodeWord 0#16 = (0#11, .clean) := by
  rw [← encodeData_zero, decodeWord_encodeData]

theorem decodeWord_positionMask {p : Nat} (hp : p < 16) :
    decodeWord (positionMask p) = (0#11, .correctedSingleBit (BitVec.ofNat 4 p)) := by
  rw [← decodeWord_encodeData_xor_positionMask _ hp, encodeData_zero, BitVec.zero_xor]

/-- The data come back, with the status that the error alone would have. -/
theorem AtMostOneFlip.decodeWord_encodeData_xor {e : Word16} (he : AtMostOneFlip e) (d : Data) :
    decodeWord (encodeData d ^^^ e) = (d, (decodeWord e).2) := by
  obtain rfl | ⟨p, hp, rfl⟩ := he
  · rw [BitVec.xor_zero, decodeWord_encodeData, decodeWord_zero]
  · rw [decodeWord_encodeData_xor_positionMask d hp, decodeWord_positionMask hp]

theorem AtMostOneFlip.isUncorrectable_decodeWord {e : Word16} (he : AtMostOneFlip e) :
    (decodeWord e).2.isUncorrectable = false := by
  obtain rfl | ⟨p, hp, rfl⟩ := he
  · rw [decodeWord_zero, DecodeStatus.isUncorrectable]
  · rw [decodeWord_positionMask hp, DecodeStatus.isUncorrectable]

theorem AtMostOneFlip.isCorrected_decodeWord {e : Word16} (he : AtMostOneFlip e) :
    (decodeWord e).2.isCorrected = (e != 0#16) := by
  obtain rfl | ⟨p, hp, rfl⟩ := he
  · rw [decodeWord_zero, DecodeStatus.isCorrected, bne_self_eq_false]
  · rw [decodeWord_positionMask hp, DecodeStatus.isCorrected, bne_iff_ne.mpr (positionMask_ne_zero hp)]

/-- Block by block, the decoder finds the data sent and the status of the flips. -/
theorem map_decodeWord_zipWith_xor {ds : List Data} {es : List Word16} (hflip : ∀ e ∈ es, AtMostOneFlip e) :
    (List.zipWith (· ^^^ ·) (ds.map encodeData) es).map decodeWord = ds.zip (es.map fun e => (decodeWord e).2) := by
  induction ds generalizing es with
  | nil => rfl
  | cons d ds ih =>
    cases es with
    | nil => rfl
    | cons e es =>
      obtain ⟨he, hes⟩ := List.forall_mem_cons.mp hflip
      simp only [List.map_cons, List.zipWith_cons_cons, List.zip_cons_cons, he.decodeWord_encodeData_xor d, ih hes]

theorem anyCorrected_flips {es : List Word16} (hflip : ∀ e ∈ es, AtMostOneFlip e) :
    anyCorrected (es.map fun e => (decodeWord e).2) = es.any fun e => e != 0#16 := by
  rw [anyCorrected, List.any_map, Bool.eq_iff_iff, List.any_eq_true, List.any_eq_true]
  refine exists_congr fun e => and_congr_right fun he => ?_
  rw [Function.comp_apply, (hflip e he).isCorrected_decodeWord]

theorem unframeMessage_messageWords_xor (r : TelemetryRecord) {es : List Word16} (hl : es.length = 45)
    (hflip : ∀ e ∈ es, AtMostOneFlip e) :
    unframeMessage (packWords (List.zipWith (· ^^^ ·) (messageWords r) es)) =
      .record r (es.any fun e => e != 0#16) := by
  rw [← anyCorrected_flips hflip]
  refine unframeMessage_of_decodeBlocks_eq_zip (by simp [hl]) ?_ ?_
  · rw [decodeBlocks_packWords (by simp [hl]), messageWords_eq_map_encodeData, map_decodeWord_zipWith_xor hflip]
  · exact List.forall_mem_map.mpr fun e he => (hflip e he).isUncorrectable_decodeWord

/-- With no bit flipped in any block. -/
theorem unframeMessage_frameRecord (r : TelemetryRecord) : unframeMessage (frameRecord r) = .record r false := by
  have hxor : List.zipWith (· ^^^ ·) (messageWords r) (List.replicate 45 0#16) = messageWords r :=
    List.ext_getElem (by simp) fun i _ _ => by rw [List.getElem_zipWith, List.getElem_replicate, BitVec.xor_zero]
  have h := unframeMessage_messageWords_xor r (es := List.replicate 45 0#16) (by simp)
    fun e he => .inl (List.eq_of_mem_replicate he)
  rwa [hxor] at h

/-! ## The padding of a received Message (R218) -/

theorem decodeBlocks_packWords_append_encodeData {ws : List Word16} (hl : ws.length = 44) (d : Data) :
    decodeBlocks (packWords (ws ++ [encodeData d])) = ws.map decodeWord ++ [(d, .clean)] := by
  rw [decodeBlocks_packWords (by simp [hl]), List.map_append, List.map_singleton, decodeWord_encodeData]

/-- Of the last block only the high four data bits are record bits. -/
theorem take_blockBits_append_last {blocks : List (Data × DecodeStatus)} (hl : blocks.length = 44) (d : Data)
    (st : DecodeStatus) :
    (blockBits (blocks ++ [(d, st)])).take Config.recordBits = blockBits blocks ++ fieldBits (d.extractLsb' 7 4) := by
  have hlast : blockBits (blocks ++ [(d, st)]) =
      (blockBits blocks ++ fieldBits (d.extractLsb' 7 4)) ++ fieldBits (d.extractLsb' 0 7) := by
    rw [List.append_assoc, ← fieldBits_high_low (m := 4) (n := 7) d]
    simp [blockBits]
  rw [hlast, List.take_left' (by simp [hl, Config.recordBits])]

end Sys2Proof.Machine

namespace Sys2Proof.Statements

open Sys2Proof.Machine

/-- Settles O54: each block's flips alone fix its status, and its data come back whatever they are. -/
theorem oneFlipPerBlockIsTolerated : Obligations.OneFlipPerBlockIsTolerated := by
  intro s r es hl hflip
  rw [exec_unframe_of_record (unframeMessage_messageWords_xor r hl hflip), respond_eq_answered, flagByte_eq_bitByte]
  rfl

/-- Settles O53: the Message of the record that the image holds unframes to that record, with no bit flipped. -/
theorem unframeOfFrameIsTheRecord : Obligations.UnframeOfFrameIsTheRecord := by
  intro s img hl hv
  rw [← byteAt_eq_getElem] at hv
  obtain ⟨r, hr, himg⟩ := exists_recordOfImage hl hv
  refine ⟨frameRecord r, exec_frame_of_some hr s, frameRecord_length r, ?_⟩
  rw [exec_unframe_of_record (unframeMessage_frameRecord r), himg, respond_eq_answered, flagByte_eq_bitByte]
  rfl

/-- Settles O51: the record ends in the status byte, whose high four bits end group 43. -/
theorem paddingIsTheLowBitsOfTheLastGroup : Obligations.PaddingIsTheLowBitsOfTheLastGroup :=
  groupData_last

/-- Settles O50: the bits of a record are the bits of the image that holds it. -/
theorem frameEncodesTheGroupsInOrder : Obligations.FrameEncodesTheGroupsInOrder :=
  fun _ _ hl hr => frameRecord_of_recordOfImage hl hr

/-- Settles O52: the last block is clean either way, and its padding bits come after the 488 record bits. -/
theorem paddingIsIgnoredOnUnframe : Obligations.PaddingIsIgnoredOnUnframe := by
  intro ws d d' hl hd
  have hlen : (ws.map decodeWord).length = 44 := by simpa using hl
  refine unframeMessage_congr ?_ ?_
  all_goals rw [decodeBlocks_packWords_append_encodeData hl, decodeBlocks_packWords_append_encodeData hl]
  · rw [List.map_append, List.map_append]
    rfl
  · rw [take_blockBits_append_last hlen, take_blockBits_append_last hlen, hd]

/-- A command of format F-MSG takes the 90 bytes of a Message. -/
theorem step_sent_of_fMsg {o : Opcode} (ho : o.format = .fMsg) {ops : List Byte} (h : ops.length ≠ 90) (s : State) :
    step (sent s (o.byte :: ops)) = .next (answered s [0x07#8]) :=
  step_sent_of_length_ne (fun hl => h (requestLength_fMsg_iff.1 (ho ▸ hl))) s

/-- Settles O12: a valid image is the image of the record it holds, and its status byte fixes the last block. -/
theorem frameReturnsTheMessage : Obligations.FrameReturnsTheMessage := by
  intro s img
  refine ⟨fun hl => step_sent_encode (i := .frame img) (decide_eq_true hl) s,
    fun hl => step_sent_of_fRec (o := .frame) rfl hl s, fun hl hv => ?_, fun hl hv => ?_⟩
  all_goals rw [← byteAt_eq_getElem] at hv
  · obtain ⟨r, hr, himg⟩ := exists_recordOfImage hl hv
    have hcode : r.status.code = img[60] := by
      rw [code_of_recordOfImage hr, byteAt_eq_getElem]
    refine ⟨r, _, hr, himg, rfl, frameRecord_length r, exec_frame_of_some hr s, fun hok => ?_, fun hemergency => ?_⟩
    · rw [blockWord_frameRecord_last, hcode, hok]
      decide
    · rw [blockWord_frameRecord_last, hcode, hemergency]
      decide
  · exact exec_frame_of_none (recordOfImage_eq_none_iff.mpr hv) s

/-- Settles O13, by what the decoder finds: a least uncorrectable block; none, and no record in the 488 bits; or a
record, whose image those bits pack to. -/
theorem unframeReportsTheFirstFailure : Obligations.UnframeReportsTheFirstFailure := by
  intro s msg
  have hlen := messageBits_length msg
  refine ⟨fun hl => step_sent_encode (i := .unframe msg) (decide_eq_true hl) s,
    fun hl => step_sent_of_fMsg (o := .unframe) rfl hl s, fun j hj hbad hleast => ?_, fun hgood hv => ?_,
    fun hgood hv => ?_⟩
  · exact exec_unframe_of_unrecoverableChannel
      (unframeMessage_of_uncorrectable (findIdx?_uncorrectable_eq_some hj hbad hleast)) s
  · have hnone := (deserializeBits_eq_none_iff hlen).mpr hv
    rw [messageBits_eq_take_blockBits] at hnone
    exact exec_unframe_of_invalidRecord
      (unframeMessage_of_malformed (findIdx?_uncorrectable_eq_none hgood) hnone) s
  · obtain ⟨r, hr, hbits⟩ := recordRoundTrip.2 (messageBits msg) hlen hv
    rw [messageBits_eq_take_blockBits] at hr
    refine ⟨_, anyCorrected_decodeBlocks_iff, ?_⟩
    rw [exec_unframe_of_record (unframeMessage_of_record (findIdx?_uncorrectable_eq_none hgood) hr), recordImage, hbits,
      respond_eq_answered, flagByte_eq_bitByte]
    rfl

end Sys2Proof.Statements
end

section
/-! PROOF. Errors and waiting (60_exceptions.md R241, R254): a command that does not answer OK writes nothing, so the
next request finds the buffer the failed one found; and a block with nothing to do waits. -/

namespace Sys2Proof.Machine

open Host Sys2Proof.Statements

/-! ## A write to the buffer comes with the status OK -/

/-- A transaction that ends in a response alone leaves the buffer as it was. -/
theorem sameBuffer_of_next_respond {o : Outcome State Fault Refusal} {s t : State} {st : RspStatus} {bytes : List Byte}
    (ho : o = .next (s.respond st bytes)) (h : o = .next t) : sameBuffer s t := by
  cases ho.symm.trans h
  exact ⟨rfl, rfl, rfl⟩

/-- A transaction that ends in the response OK, whatever it wrote before, answers OK. -/
theorem answersOk_of_next_respond {o : Outcome State Fault Refusal} {s t u : State} {bytes : List Byte}
    (ho : o = .next (u.respond .ok bytes)) (hu : u.responses = s.responses) (h : o = .next t) :
    ∃ bytes, t.responses = s.responses ++ [RspStatus.ok.code :: bytes] := by
  cases ho.symm.trans h
  exact ⟨bytes, by rw [State.respond_responses, hu]⟩

/-- BB.CLEAR is a reset that is answered (70_reset_and_hazards.md R271). -/
theorem exec_bbClear (s : State) : exec .bbClear s = .next (s.resetBlock.respond .ok []) := rfl

/-- A codec, record or framer command only responds (10_state.md R29). -/
theorem exec_sameBuffer_of_outsideBitBuffer {i : Instr} {s t : State} (h : exec i s = .next t)
    (hout : outsideBitBuffer i = true) : sameBuffer s t := by
  obtain ⟨st, bytes, hexec⟩ := exec_eq_respond_of_outsideBitBuffer hout
  exact sameBuffer_of_next_respond (hexec s) h

/-- Only BB.CLEAR, BB.PUSH, BB.POP and BB.LOADB write the buffer, each only on the way to its OK response
(60_exceptions.md R241). -/
theorem exec_sameBuffer_or_answersOk {i : Instr} {s t : State} (h : exec i s = .next t) :
    sameBuffer s t ∨ ∃ bytes, t.responses = s.responses ++ [RspStatus.ok.code :: bytes] := by
  cases i with
  | bbClear => exact .inr (answersOk_of_next_respond (exec_bbClear s) rfl h)
  | bbPush b =>
    rcases Nat.lt_or_ge s.len.toNat s.bbN.toNat with hlt | hle
    · exact .inr (answersOk_of_next_respond (execBbPush_of_lt b hlt) rfl h)
    · exact .inl (sameBuffer_of_next_respond (execBbPush_of_le b hle) h)
  | bbPop =>
    by_cases h0 : s.len = 0#16
    · exact .inl (sameBuffer_of_next_respond (execBbPop_of_empty h0) h)
    · cases hb : s.cells.read (s.len.toNat - 1) with
      | none => simp [exec, execBbPop, h0, hb] at h
      | some b => exact .inr (answersOk_of_next_respond (execBbPop_of_read h0 hb) rfl h)
  | bbLen => exact .inl (sameBuffer_of_next_respond (bytes := bytes16 s.len) rfl h)
  | bbCap => exact .inl (sameBuffer_of_next_respond (exec_bbCap s) h)
  | bbGet i =>
    rcases Nat.lt_or_ge i.toNat s.len.toNat with hlt | hle
    · cases hb : s.cells.read i.toNat with
      | none => simp [exec, execBbGet, Nat.not_le.2 hlt, hb] at h
      | some b => exact .inl (sameBuffer_of_next_respond (execBbGet_of_read hlt hb) h)
    · exact .inl (sameBuffer_of_next_respond (execBbGet_of_le hle) h)
  | bbLoadb xs =>
    rcases Nat.lt_or_ge s.bbN.toNat (8 * xs.length) with hlt | hle
    · exact .inl (sameBuffer_of_next_respond (execBbLoadb_of_lt hlt) h)
    · exact .inr (answersOk_of_next_respond (execBbLoadb_of_le hle) rfl h)
  | encode _ | decode _ | serialize _ | deserialize _ | frame _ | unframe _ =>
    exact .inl (exec_sameBuffer_of_outsideBitBuffer h rfl)

/-- A request that is no command is answered with an error and writes nothing. -/
theorem performRequest_sameBuffer_or_answersOk {req : List Byte} {s t : State} (h : performRequest req s = .next t) :
    sameBuffer s t ∨ ∃ bytes, t.responses = s.responses ++ [RspStatus.ok.code :: bytes] := by
  cases hd : decode req with
  | ok i =>
    rw [performRequest_of_ok hd] at h
    exact exec_sameBuffer_or_answersOk h
  | error e => exact .inl (sameBuffer_of_next_respond (performRequest_of_error hd s) h)

/-- An error response leaves the buffer as it was. -/
theorem sameBuffer_of_error {req : List Byte} {s t : State} {st : Byte} {bytes : List Byte}
    (h : performRequest req s = .next t) (hrsp : t.responses = s.responses ++ [st :: bytes])
    (herr : st ≠ RspStatus.ok.code) : sameBuffer s t := by
  refine (performRequest_sameBuffer_or_answersOk h).resolve_right fun ⟨bytes', hok⟩ => herr ?_
  have hsame : st :: bytes = RspStatus.ok.code :: bytes' := by simpa using hrsp.symm.trans hok
  exact (List.cons.inj hsame).1

/-! ## Waiting -/

theorem step_of_inputs_nil {s : State} (h : s.inputs = []) : step s = .next s := by
  simp only [step, h]

end Sys2Proof.Machine

namespace Sys2Proof.Statements

open Sys2Proof.Machine

/-- Settles O21: the failed request leaves the buffer as it was, and two states of the same buffer answer every next
request alike (20_memory.md R55). -/
theorem errorResponsesChangeNoState : Obligations.ErrorResponsesChangeNoState := by
  intro s t req st bytes hstep hrsp herr
  rw [step_sent] at hstep
  have hbuf : sameBuffer s t := sameBuffer_of_error hstep hrsp herr
  exact ⟨hbuf, fun req' u hu => commandsAreDeterministic s t u req' hbuf hu⟩

/-- Settles O37: with no event to take, the step is the wait. -/
theorem theBlockWaitsForARequest : Obligations.TheBlockWaitsForARequest :=
  fun _ h => step_of_inputs_nil h

end Sys2Proof.Statements
end

section
/-! PROOF. Reset and hazards (70_reset_and_hazards.md R270 to R277): what a step does on each event that is not a
request, and that a host which waits for its responses is never left without a step. -/

namespace Sys2Proof.Machine

open Host Sys2Proof.Statements

/-! ## The step on a reset and on an early request -/

theorem step_of_reset {s : State} {evs : List HostEvent} (hin : s.inputs = .reset :: evs) :
    step s = .next (s.withInputs evs).resetBlock := by
  simp only [step, hin]

theorem step_of_resetDuring {s : State} {req : List Byte} {evs : List HostEvent}
    (hin : s.inputs = .resetDuring req :: evs) : step s = .next (s.withInputs evs).resetBlock := by
  simp only [step, hin]

theorem step_of_earlyRequest {s : State} {req : List Byte} {evs : List HostEvent}
    (hin : s.inputs = .earlyRequest req :: evs) : step s = .refused .requestBeforeResponse := by
  simp only [step, hin]

/-- The host's next reset is taken in the state that it is sent to. -/
theorem step_cons_reset (s : State) : step { s with inputs := .reset :: s.inputs } = .next s.resetBlock :=
  step_of_reset rfl

theorem step_cons_resetDuring (s : State) (req : List Byte) :
    step { s with inputs := .resetDuring req :: s.inputs } = .next s.resetBlock :=
  step_of_resetDuring rfl

/-- A reset forgets all of the buffer but its capacity. -/
theorem State.resetBlock_sameBuffer {s t : State} (h : t.bbN = s.bbN) : sameBuffer t.resetBlock s.resetBlock :=
  ⟨h.symm, rfl, rfl⟩

/-! ## The host's events under every step -/

/-- A step takes the host's next event, if there is one, and leaves the others. -/
theorem step_inputs {s t : State} (h : step s = .next t) : t.inputs = s.inputs.tail := by
  obtain ⟨hin, rfl⟩ | ⟨_, _, _, hin, -, hexec⟩ | ⟨_, _, _, hin, -, rfl⟩ | ⟨_, hin, rfl⟩ | ⟨_, _, hin, rfl⟩ :=
    step_next_cases h
  case inl => rw [hin, List.tail_nil]
  case inr.inl =>
    obtain ⟨-, hevs, -⟩ := exec_next_shape hexec
    rw [hevs, hin, State.withInputs_inputs, List.tail_cons]
  all_goals rw [hin]; rfl

/-- A host that waits for its responses still does so after any step. -/
theorem step_keeps_hostWaits {s t : State} (hw : s.hostWaits) (h : step s = .next t) : t.hostWaits := by
  intro ev hev
  rw [step_inputs h] at hev
  exact hw ev (List.mem_of_mem_tail hev)

/-- The invariants rule out the fault of a command, and the host's duty rules out the one refusal. -/
theorem step_goesOn {s : State} (hs : s.Inv) (hw : s.hostWaits) : goesOn (step s) := by
  cases hin : s.inputs with
  | nil => exact ⟨_, step_of_inputs_nil hin⟩
  | cons ev evs =>
    cases ev with
    | request req =>
      obtain ⟨t, -, hstep, -⟩ := step_request_of_inv hs hin
      exact ⟨t, hstep⟩
    | earlyRequest req => exact absurd rfl (hw (.earlyRequest req) (by simp [hin]) req)
    | reset => exact ⟨_, step_of_reset hin⟩
    | resetDuring req => exact ⟨_, step_of_resetDuring hin⟩

end Sys2Proof.Machine

namespace Sys2Proof.Statements

open Sys2Proof.Machine

/-- Settles O34: the step goes on, and what it leaves of the host's events holds no early request either. -/
theorem noStepGetsStuck : Obligations.NoStepGetsStuck := by
  intro s hs hw
  obtain ⟨t, ht⟩ := step_goesOn hs hw
  exact ⟨t, ht, step_keeps_hostWaits hw ht⟩

/-- Settles O27: performed or not, the request leaves the capacity as it was, which is all that a reset keeps of the
buffer. -/
theorem resetDropsTheRequestInProgress : Obligations.ResetDropsTheRequestInProgress := by
  intro s req
  refine ⟨s.resetBlock, step_cons_resetDuring s req, s.resetBlock_responses, s.resetBlock_inputs,
    ⟨_, step_cons_reset s, State.resetBlock_sameBuffer rfl⟩, fun t ht => ?_⟩
  have hcap : t.bbN = (sent s req).bbN := step_bbN ht
  exact ⟨_, step_cons_reset t, State.resetBlock_sameBuffer hcap⟩

/-- Settles O25: the reset state and the state that a reset leaves list no cell. -/
theorem resetEmptiesTheBuffer : Obligations.ResetEmptiesTheBuffer :=
  ⟨rfl, Cells.read_nil, fun s => ⟨_, step_cons_reset s, s.resetBlock_len, Cells.read_nil, s.resetBlock_bbN⟩⟩

/-- Settles O26: BB.CLEAR is a reset that is answered. -/
theorem resetIsClearWithoutResponse : Obligations.ResetIsClearWithoutResponse := by
  intro s
  refine ⟨_, step_cons_reset s, ?_⟩
  calc step (sent s [0x01#8])
    _ = exec .bbClear s := step_sent_encode (i := .bbClear) rfl s
    _ = .next (answered s.resetBlock [0x00#8]) := exec_bbClear s

/-- Settles O36: the step on an early request is the refusal. -/
theorem earlyRequestsAreRefused : Obligations.EarlyRequestsAreRefused :=
  fun _ _ _ hin => step_of_earlyRequest hin

end Sys2Proof.Statements
end
